-- ==== Sys2Proof/Word.lean ====
section
/-! DEFINITION. The word types of the machine (00_scope.md rule R8, 30_encoding.md rule R59) and the
name of the flags register. -/

namespace Sys2Proof

/-- One memory cell, one V register, one timer: 8 bits, unsigned (00_scope.md rule R8). -/
abbrev Byte := BitVec 8

/-- An instruction word, `I`, `pc` or a call-stack slot: 16 bits, unsigned (00_scope.md rule R8). -/
abbrev Word := BitVec 16

/-- The 12-bit address field `nnn` (30_encoding.md rule R59). -/
abbrev Addr12 := BitVec 12

/-- A 4-bit register-index field, `x` or `y` (30_encoding.md rule R59). -/
abbrev Reg := BitVec 4

/-- `VF`, general register 15, the flags register (10_state.md rule R17). -/
abbrev vf : Reg := 0xF#4

end Sys2Proof
end

