-- ==== Sys2Proof/Config.lean ====
section
/-! DEFINITION. What an implementation fixes (00_scope.md rule R8 and rule R9: FONT_BASE, FONT_DATA and
STEP_NS are configuration fields with defaults), and the one free value of the machine, the random byte
(42_index_random.md rule R94). -/

namespace Sys2Proof

/-- The configuration of one machine (00_scope.md rule R9). It is held in the state and no transition
writes it, so a statement about every state holds for every configuration. (DESIGN CHOICE, log entry 1;
safe for statements about every state, unsafe for statements about `State.reset`.) -/
structure Config where
  /-- FONT_BASE, the address of the glyph table (92_eei_decisions.md D4). -/
  fontBase : Nat
  /-- FONT_DATA, the 80 glyph bytes, glyph g at bytes 5g to 5g + 4 (92_eei_decisions.md D5). -/
  fontData : Vector Byte 80
  /-- STEP_NS, the length in nanoseconds of one 1/60 s step of the timer clock (92_eei_decisions.md D19). -/
  stepNs : Nat
  deriving DecidableEq, Repr

/-- The default FONT_DATA: the glyphs 0 to F of 10_state.md rule R34. -/
def Config.defaultFont : Vector Byte 80 :=
  #v[0xF0, 0x90, 0x90, 0x90, 0xF0,
     0x20, 0x60, 0x20, 0x20, 0x70,
     0xF0, 0x10, 0xF0, 0x80, 0xF0,
     0xF0, 0x10, 0xF0, 0x10, 0xF0,
     0x90, 0x90, 0xF0, 0x10, 0x10,
     0xF0, 0x80, 0xF0, 0x10, 0xF0,
     0xF0, 0x80, 0xF0, 0x90, 0xF0,
     0xF0, 0x10, 0x20, 0x40, 0x40,
     0xF0, 0x90, 0xF0, 0x90, 0xF0,
     0xF0, 0x90, 0xF0, 0x10, 0xF0,
     0xF0, 0x90, 0xF0, 0x90, 0x90,
     0xE0, 0x90, 0xE0, 0x90, 0xE0,
     0xF0, 0x80, 0x80, 0x80, 0xF0,
     0xE0, 0x90, 0x90, 0x90, 0xE0,
     0xF0, 0x80, 0xF0, 0x80, 0xF0,
     0xF0, 0x80, 0xF0, 0x80, 0x80]

/-- The defaults of 00_scope.md rule R8. -/
def Config.default : Config :=
  { fontBase := 0x000, fontData := Config.defaultFont, stepNs := 16666666 }

/-- The admitted configurations (92_eei_decisions.md, table of open parameters): FONT_BASE + 80 <= 0x200
and STEP_NS positive; any 80 bytes are admitted as FONT_DATA. -/
abbrev Config.Admitted (c : Config) : Prop := c.fontBase + 80 ≤ 0x200 ∧ 0 < c.stepNs

/-- FREE VALUE: the k-th byte the environment draws for `CXNN` (42_index_random.md rule R94: every value
0 to 255 is possible at every CXNN). It has no body, so no proof can rest on its value. (DESIGN CHOICE of
form, log entry 2; safe.) -/
opaque Config.freeByte : Nat → Byte

end Sys2Proof
end

