-- ==== Sys2Proof/Machine/State.lean ====
section
/-! DEFINITION. The state of the block (10_state.md), its fault, the events it logs, and the state after
reset (10_state.md rule R37, 70_reset_and_hazards.md rule R145). -/

namespace Sys2Proof.Machine

/-- Why the interpreter has no step. -/
inductive Fault where
  /-- The fetch at `pc` met the end of memory in an earlier step, which recorded it in the state's `fault`
  (30_encoding.md rule R57, 60_exceptions.md rule R124). Raised by `step` in every state whose `fault` is
  set. Safe: the machine stops where the spec stops it. -/
  | fetchOutOfBounds (pc : Word)
  deriving DecidableEq, Repr

/-- Why the model gives no answer. -/
inductive Refusal where
  /-- An instruction that has no meaning yet. Raised by no arm of `exec` now: every instruction has its
  meaning. Safe. -/
  | notModelled (mnemonic : String)
  /-- loadProgram after the first step since reset (60_exceptions.md rule R140: "a model refuses it").
  Raised by `transact (.loadProgram ..)`. Unsafe for a host that does reload (92_eei_decisions.md D28: the
  move is missing). Log entry 6. -/
  | loadAfterFirstStep
  deriving DecidableEq, Repr

/-- A log event: the failure's name and the information of 60_exceptions.md rule R119. Only failures met by
an instruction are logged; NoKeyPressed and the fetch fault are not. -/
inductive LogEvent where
  /-- A memory access at `addr` >= 4096 by FX33, FX55 or FX65. -/
  | outOfBounds (addr : Nat)
  /-- The CALL at `callAddr` found the stack full. -/
  | stackOverflow (callAddr : Word)
  /-- The RET at `retAddr` found the stack empty. -/
  | stackUnderflow (retAddr : Word)
  /-- EX9E or EXA1 named the key identity `key` >= 16. -/
  | invalidKey (key : Byte)
  /-- The word `w` is outside the opcode map. -/
  | unimplemented (w : Word)
  /-- DXYN at index `i` asked for `n` rows and drew `n'`. -/
  | spriteTruncated (i : Word) (n n' : Nat)
  deriving DecidableEq, Repr

/-- The display buffer: row y, column x at `pix[y][x]`, true = lit (10_state.md rule R29). -/
abbrev Pixels := Vector (Vector Bool 64) 32

/-- The whole state. The first fourteen fields are the tuple of 10_state.md; the last four are the model's
own (INVENTORY.md, "State"). -/
structure State where
  /-- Mem (20_memory.md rule R38): the bytes that differ from the reset contents, by rising address. -/
  mem : List Host.Cell
  /-- V0 to VF (rule R16). -/
  v : Vector Byte 16
  /-- The index register I (rule R21). -/
  i : Word
  /-- The program counter (rule R19). -/
  pc : Word
  /-- The stack-depth counter SP, 0 to 16 (rule R22). -/
  sp : Nat
  /-- The call stack (rule R23). -/
  stack : Vector Word 16
  /-- The delay timer DT (rule R26). -/
  dt : Byte
  /-- The sound timer ST (rule R26). -/
  st : Byte
  /-- Key[0] to Key[15], true = down (rule R28). -/
  key : Vector Bool 16
  /-- The display buffer (rule R29). -/
  pix : Pixels
  /-- The display's dirty flag (rule R30). -/
  dirty : Bool
  /-- The timer clock's nanosecond accumulator (rule R27). -/
  acc : Nat
  /-- Was ST nonzero at the end of the previous tick (rule R27)? -/
  toneLatch : Bool
  /-- The fault state (rule R32). -/
  fault : Option Fault
  /-- The configuration (00_scope.md rule R9); no transition writes it. -/
  cfg : Config
  /-- The events logged so far, oldest first (60_exceptions.md rule R123). -/
  log : List LogEvent
  /-- How many random bytes have been drawn: the index of the next free value (log entry 2). -/
  draws : Nat
  /-- Has a step been taken since reset (60_exceptions.md rule R140, log entry 6)? -/
  started : Bool
  deriving DecidableEq, Repr

/-- The state after reset of a machine configured as `c` (70_reset_and_hazards.md rule R145). -/
def State.resetWith (c : Config) : State :=
  { mem := []
    v := Vector.replicate 16 0
    i := 0
    pc := 0x200
    sp := 0
    stack := Vector.replicate 16 0
    dt := 0
    st := 0
    key := Vector.replicate 16 false
    pix := Vector.replicate 32 (Vector.replicate 64 false)
    dirty := true
    acc := 0
    toneLatch := false
    fault := none
    cfg := c
    log := []
    draws := 0
    started := false }

/-- The machine right after reset, with the default configuration of 00_scope.md rule R8. -/
def State.reset : State := State.resetWith Config.default

/-- What a step of the interpreter answers. -/
abbrev Result := Host.Outcome State Fault Refusal

end Sys2Proof.Machine
end

