-- ==== Sys2Proof/Machine/Ops.lean ====
section
/-! DEFINITION. The named operations over registers, memory, the call stack and the log, and the one stop
of the interpreter: the fetch fault. The block has no exception entry and no exception return
(60_exceptions.md rule R127, rule R128), so there is nothing else to take. -/

namespace Sys2Proof.Machine

/-! ### Registers -/

/-- `V[x]` (10_state.md rule R16). -/
def State.readV (s : State) (x : Reg) : Byte := s.v[x.toNat]'x.isLt

/-- `V[x] <- b` (10_state.md rule R16: no register is hardwired). -/
def State.setV (s : State) (x : Reg) (b : Byte) : State := { s with v := s.v.set x.toNat b x.isLt }

/-- `I <- w` (10_state.md rule R21). -/
def State.setI (s : State) (w : Word) : State := { s with i := w }

/-- `pc <- w` (10_state.md rule R19). -/
def State.setPc (s : State) (w : Word) : State := { s with pc := w }

/-- A conditional skip: `pc <- pc + 2` when the condition holds, on the pre-incremented pc
(40_flow.md rule R74). -/
def State.skipIf (s : State) (c : Bool) : State := if c then s.setPc (s.pc + 2) else s

/-- The address of the instruction that is executing: the pre-incremented pc less 2 (10_state.md rule R19). -/
def State.instrAddr (s : State) : Word := s.pc - 2

/-! ### The log -/

/-- `log e`: append an event; no architectural state changes (60_exceptions.md rule R123). -/
def State.logEvent (s : State) (e : LogEvent) : State := { s with log := s.log ++ [e] }

/-! ### Memory -/

/-- The number of bytes of memory, MEM_SIZE (00_scope.md rule R8). -/
abbrev memSize : Nat := 4096

/-- PROG_BASE (00_scope.md rule R8). -/
abbrev progBase : Nat := 0x200

/-- What memory holds after reset (10_state.md rule R37): FONT_DATA at FONT_BASE, 0 elsewhere. It is what an
unlisted address reads as. -/
def resetByte (c : Config) (a : Nat) : Byte :=
  if h : c.fontBase ≤ a ∧ a < c.fontBase + 80 then c.fontData[a - c.fontBase]'(by omega) else 0

/-- The byte listed for an address, if one is. -/
def Memory.lookup (a : Nat) : List Host.Cell → Option Byte
  | [] => none
  | (k, b) :: m => if a = k then some b else Memory.lookup a m

/-- List a byte for an address, keeping the list sorted by address without repeats. -/
def Memory.insert (a : Nat) (b : Byte) : List Host.Cell → List Host.Cell
  | [] => [(a, b)]
  | (k, c) :: m =>
    if a < k then (a, b) :: (k, c) :: m
    else if a = k then (a, b) :: m
    else (k, c) :: Memory.insert a b m

/-- Unlist an address. -/
def Memory.erase (a : Nat) : List Host.Cell → List Host.Cell
  | [] => []
  | (k, b) :: m => if a = k then Memory.erase a m else (k, b) :: Memory.erase a m

/-- Store a byte, keeping the canonical form: a byte equal to the reset contents is unlisted. -/
def Memory.put (c : Config) (a : Nat) (b : Byte) (m : List Host.Cell) : List Host.Cell :=
  if b = resetByte c a then Memory.erase a m else Memory.insert a b m

/-- The byte memory holds at an address below `memSize`. -/
def Memory.byteAt (c : Config) (m : List Host.Cell) (a : Nat) : Byte :=
  (Memory.lookup a m).getD (resetByte c a)

/-- The list is in canonical form: addresses strictly rising, all below `memSize`, and no byte equal to the
reset contents. -/
def Memory.wf (c : Config) (m : List Host.Cell) : Bool :=
  decide (m.Pairwise (fun p q => p.1 < q.1)) &&
    m.all (fun p => decide (p.1 < memSize) && !decide (p.2 = resetByte c p.1))

/-- MemRead(a, 1): none is OutOfBounds (20_memory.md rule R39). -/
def State.memRead (s : State) (a : Nat) : Option Byte :=
  if a < memSize then some (Memory.byteAt s.cfg s.mem a) else none

/-- MemWrite(a, 1, b): none is OutOfBounds, memory unchanged (20_memory.md rule R40). -/
def State.memWrite (s : State) (a : Nat) (b : Byte) : Option State :=
  if a < memSize then some { s with mem := Memory.put s.cfg a b s.mem } else none

/-! ### The call stack -/

/-- stackPush(w): none is StackOverflow (10_state.md rule R24). A depth above 16 occurs in no run (rule R22)
and is treated as full. -/
def State.stackPush (s : State) (w : Word) : Option State :=
  if h : s.sp < 16 then some { s with stack := s.stack.set s.sp w h, sp := s.sp + 1 } else none

/-- stackPop(): none is StackUnderflow; the popped slot keeps its value (10_state.md rule R25). A depth
above 16 occurs in no run (rule R22) and names no slot, so it fails too. -/
def State.stackPop (s : State) : Option (Word × State) :=
  if h : 0 < s.sp ∧ s.sp ≤ 16 then
    some (s.stack[s.sp - 1]'(by omega), { s with sp := s.sp - 1 })
  else none

/-! ### Block transfers -/

/-- The store loop of FX55 (45_fx.md rule R117): `V[j]` to `base + j` for each j in turn, stopping at the
first OutOfBounds, which is logged. The flag says whether every byte was stored. -/
def storeRegs (base : Nat) : List Nat → State → State × Bool
  | [], s => (s, true)
  | j :: js, s =>
    match s.memWrite (base + j) (s.readV (BitVec.ofNat 4 j)) with
    | none => (s.logEvent (.outOfBounds (base + j)), false)
    | some s' => storeRegs base js s'

/-- The load loop of FX65 (45_fx.md rule R118): `V[j]` from `base + j` for each j in turn, stopping at the
first OutOfBounds, which is logged. The flag says whether every register was loaded. -/
def loadRegs (base : Nat) : List Nat → State → State × Bool
  | [], s => (s, true)
  | j :: js, s =>
    match s.memRead (base + j) with
    | none => (s.logEvent (.outOfBounds (base + j)), false)
    | some b => loadRegs base js (s.setV (BitVec.ofNat 4 j) b)

/-- The store loop of FX33 (45_fx.md rule R116): each byte is tried on its own, an OutOfBounds is logged and
the loop goes on. -/
def storeBytes : Nat → List Byte → State → State
  | _, [], s => s
  | a, b :: bs, s =>
    match s.memWrite a b with
    | none => storeBytes (a + 1) bs (s.logEvent (.outOfBounds a))
    | some s' => storeBytes (a + 1) bs s'

/-! ### The fetch fault -/

/-- `fault <- FetchOutOfBounds(pc)`, with no other state change (30_encoding.md rule R57). -/
def takeFetchFault (s : State) : State := { s with fault := some (.fetchOutOfBounds s.pc) }

end Sys2Proof.Machine
end

