-- ==== Sys2Proof/Machine/Flags.lean ====
section
/-! DEFINITION. The values the instructions write into VF (10_state.md rule R17: always exactly 0 or 1). -/

namespace Sys2Proof.Machine

/-- A flag as VF holds it: 1 or 0 (10_state.md rule R17). -/
def flagByte (c : Bool) : Byte := if c then 1 else 0

/-- The carry out of the 8-bit sum a + b (41_alu.md rule R85). -/
def carryOut (a b : Byte) : Bool := decide (255 < a.toNat + b.toNat)

/-- No borrow in a - b: minuend >= subtrahend (41_alu.md rule R86). -/
def noBorrow (a b : Byte) : Bool := decide (b.toNat ≤ a.toNat)

/-- The bit a right shift shifts out, bit 0 (41_alu.md rule R87). -/
def shiftedOutRight (a : Byte) : Bool := a.getLsbD 0

/-- The bit a left shift shifts out, bit 7 (41_alu.md rule R89). -/
def shiftedOutLeft (a : Byte) : Bool := a.getLsbD 7

/-- `VF <- flag` (10_state.md rule R17). -/
def State.setFlag (s : State) (c : Bool) : State := s.setV vf (flagByte c)

end Sys2Proof.Machine
end

