-- ==== Sys2Proof/Machine/Alu.lean ====
section
/-! DEFINITION. Immediate and register arithmetic (41_alu.md). The result goes to V[x] and then the flag to
VF, both computed from the operands read before; the shifts write the flag first and read V[x] after it
(rule R80). -/

namespace Sys2Proof.Machine

/-- The write order of 8XY1 to 8XY5 and 8XY7: result, then flag (rule R80). -/
def writeResultThenFlag (x : Reg) (result : Byte) (flag : Bool) (s : State) : State :=
  (s.setV x result).setFlag flag

/-- LD Vx, nn (rule R78). -/
def execLdImm (x : Reg) (nn : Byte) (s : State) : Result := .next (s.setV x nn)

/-- ADD Vx, nn (rule R79): wraps modulo 256, no flag. -/
def execAddImm (x : Reg) (nn : Byte) (s : State) : Result := .next (s.setV x (s.readV x + nn))

/-- LD Vx, Vy (rule R81). -/
def execLdReg (x y : Reg) (s : State) : Result := .next (s.setV x (s.readV y))

/-- OR Vx, Vy (rule R82): VF cleared last. -/
def execOrReg (x y : Reg) (s : State) : Result :=
  .next (writeResultThenFlag x (s.readV x ||| s.readV y) false s)

/-- AND Vx, Vy (rule R83): VF cleared last. -/
def execAndReg (x y : Reg) (s : State) : Result :=
  .next (writeResultThenFlag x (s.readV x &&& s.readV y) false s)

/-- XOR Vx, Vy (rule R84): VF cleared last. -/
def execXorReg (x y : Reg) (s : State) : Result :=
  .next (writeResultThenFlag x (s.readV x ^^^ s.readV y) false s)

/-- ADD Vx, Vy (rule R85): carry out to VF, no carry in. -/
def execAddReg (x y : Reg) (s : State) : Result :=
  .next (writeResultThenFlag x (s.readV x + s.readV y) (carryOut (s.readV x) (s.readV y)) s)

/-- SUB Vx, Vy (rule R86): VF is 1 when no borrow occurred. -/
def execSubReg (x y : Reg) (s : State) : Result :=
  .next (writeResultThenFlag x (s.readV x - s.readV y) (noBorrow (s.readV x) (s.readV y)) s)

/-- SHR Vx, Vy (rule R87): the flag first, then the shift of V[x] as it then is; V[y] is not read. -/
def execShr (x _y : Reg) (s : State) : Result :=
  let flagged := s.setFlag (shiftedOutRight (s.readV x))
  .next (flagged.setV x (flagged.readV x >>> 1))

/-- SUBN Vx, Vy (rule R88): V[y] - V[x]. -/
def execSubn (x y : Reg) (s : State) : Result :=
  .next (writeResultThenFlag x (s.readV y - s.readV x) (noBorrow (s.readV y) (s.readV x)) s)

/-- SHL Vx, Vy (rule R89): the flag first, then the shift of V[x] as it then is; V[y] is not read. -/
def execShl (x _y : Reg) (s : State) : Result :=
  let flagged := s.setFlag (shiftedOutLeft (s.readV x))
  .next (flagged.setV x (flagged.readV x <<< 1))

end Sys2Proof.Machine
end

