-- ==== Sys2Proof/Machine/Operands.lean ====
section
/-! DEFINITION. Operand forms (30_encoding.md rule R60): zero extension of nnn, and the operands that
45_fx.md computes from a register: the glyph address and the decimal digits. -/

namespace Sys2Proof.Machine

/-- `zext_16(nnn)` (00_scope.md rule R12, 30_encoding.md rule R60). -/
def zext16 (nnn : Addr12) : Word := nnn.setWidth 16

/-- An 8-bit operand widened with zeros to 16 bits (00_scope.md rule R12). -/
def zextByte (b : Byte) : Word := b.setWidth 16

/-- `FONT_BASE + (b & 0xF) * 5`: where the glyph of the low nibble lies (45_fx.md rule R115). -/
def glyphAddress (c : Config) (b : Byte) : Word := BitVec.ofNat 16 (c.fontBase + (b &&& 0xF).toNat * 5)

/-- The hundreds, tens and ones digits of an 8-bit value (45_fx.md rule R116). -/
def bcdDigits (b : Byte) : List Byte :=
  [BitVec.ofNat 8 (b.toNat / 100), BitVec.ofNat 8 (b.toNat / 10 % 10), BitVec.ofNat 8 (b.toNat % 10)]

end Sys2Proof.Machine
end

