-- ==== Sys2Proof/Machine/Display.lean ====
section
/-! DEFINITION. The display engine (43_display.md): clear, getPixel, togglePixel, drawSprite, the row clamp,
and the instruction DRW. -/

namespace Sys2Proof.Machine

/-! ### The display engine -/

/-- clear(): "zero all pixels, mark dirty" (rule R95). -/
def clearDisplay (s : State) : State :=
  { s with pix := Vector.replicate 32 (Vector.replicate 64 false), dirty := true }

/-- The cell of a grid at wrapped coordinates, x mod 64 and y mod 32 (rule R96). -/
def pixelAt (p : Pixels) (x y : Nat) : Bool :=
  (p[y % 32]'(Nat.mod_lt y (by decide)))[x % 64]'(Nat.mod_lt x (by decide))

/-- A grid with the cell at wrapped coordinates replaced (rule R97). -/
def pixelSet (p : Pixels) (x y : Nat) (b : Bool) : Pixels :=
  p.set (y % 32) ((p[y % 32]'(Nat.mod_lt y (by decide))).set (x % 64) b (Nat.mod_lt x (by decide)))
    (Nat.mod_lt y (by decide))

/-- getPixel(x, y), true = lit (rule R96). -/
def State.getPixel (s : State) (x y : Nat) : Bool := pixelAt s.pix x y

/-- togglePixel(x, y): XORs the wrapped cell, marks dirty, and answers whether the cell went from lit to
unlit (rule R97). -/
def togglePixel (x y : Nat) (s : State) : State × Bool :=
  ({ s with pix := pixelSet s.pix x y (!s.getPixel x y), dirty := true }, s.getPixel x y)

/-- The columns 0 to 7 of a sprite row whose bit is 1; column c is bit 7 - c (rule R99). -/
def rowColumns (b : Byte) : List Nat := (List.range 8).filter (fun c => b.getLsbD (7 - c))

/-- The coordinates under the 1 bits of a sprite, in the order drawSprite toggles them: rows downward, columns
rightward, origin (ox, oy) (rule R99). -/
def spriteCells (ox : Nat) : Nat → List Byte → List (Nat × Nat)
  | _, [] => []
  | y, b :: bs => (rowColumns b).map (fun c => (ox + c, y)) ++ spriteCells ox (y + 1) bs

/-- Toggle each cell in turn; the flag says whether any toggle so far collided (rule R99). -/
def toggleCells : List (Nat × Nat) → State → Bool → State × Bool
  | [], s, hit => (s, hit)
  | p :: ps, s, hit => toggleCells ps (togglePixel p.1 p.2 s).1 (hit || (togglePixel p.1 p.2 s).2)

/-- drawSprite(ox, oy, rows): the drawn state and whether any toggle collided (rule R99). -/
def drawSprite (ox oy : Nat) (rows : List Byte) (s : State) : State × Bool :=
  toggleCells (spriteCells ox oy rows) s false

/-! ### Host access -/

/-- consumeDirty(): answers the dirty flag and clears it (rule R101). -/
def consumeDirty (s : State) : State × Bool := ({ s with dirty := false }, s.dirty)

/-- The pixel snapshot: all 2048 values of getPixel, cell k of the row-major order k = y * 64 + x of
10_state.md rule R31 being the pixel (k mod 64, k div 64) (rule R101). -/
def snapshot (s : State) : List Bool :=
  (List.range 2048).map (fun k => s.getPixel (k % 64) (k / 64))

/-! ### The instruction -/

/-- The clamped row count n' for n != 0 (rule R102). -/
def clampRows (i : Word) (n : Nat) : Nat :=
  if memSize ≤ i.toNat then 0 else if memSize < i.toNat + n then memSize - i.toNat else n

/-- The log event of a clamp that cut rows off, SpriteTruncated(I, n, n') (rule R102). -/
def logClamp (s : State) (n : Nat) : State :=
  if clampRows s.i n = n then s else s.logEvent (.spriteTruncated s.i n (clampRows s.i n))

/-- The sprite's bytes: MemRead(I + r) for each row r below the clamped count (rule R103; after the clamp no
read fails). -/
def spriteBytes (s : State) (rows : Nat) : List Byte :=
  (List.range rows).filterMap (fun r => s.memRead (s.i.toNat + r))

/-- DRW Vx, Vy, n (rule R103). -/
def execDrw (x y : Reg) (n : Nat) (s : State) : Result :=
  if n = 0 then .next (s.setFlag false)
  else
    let drawn := drawSprite (s.readV x).toNat (s.readV y).toNat (spriteBytes s (clampRows s.i n)) (logClamp s n)
    .next (drawn.1.setFlag drawn.2)

end Sys2Proof.Machine
end

