-- ==== Sys2Proof/Machine/Flow.lean ====
section
/-! DEFINITION. Display clear, subroutines, jumps and conditional skips (40_flow.md). Every meaning runs on
the pre-incremented pc (30_encoding.md rule R58). -/

namespace Sys2Proof.Machine

/-- CLS (rule R70). -/
def execCls (s : State) : Result := .next (clearDisplay s)

/-- RET (rule R71): on underflow only the log changes. -/
def execRet (s : State) : Result :=
  match s.stackPop with
  | none => .next (s.logEvent (.stackUnderflow s.instrAddr))
  | some (w, s') => .next (s'.setPc w)

/-- JP nnn (rule R72). -/
def execJp (nnn : Addr12) (s : State) : Result := .next (s.setPc (zext16 nnn))

/-- CALL nnn (rule R73): pushes the pre-incremented pc; on overflow it does not jump. -/
def execCall (nnn : Addr12) (s : State) : Result :=
  match s.stackPush s.pc with
  | none => .next (s.logEvent (.stackOverflow s.instrAddr))
  | some s' => .next (s'.setPc (zext16 nnn))

/-- SE Vx, nn (rule R74). -/
def execSeImm (x : Reg) (nn : Byte) (s : State) : Result := .next (s.skipIf (s.readV x == nn))

/-- SNE Vx, nn (rule R75). -/
def execSneImm (x : Reg) (nn : Byte) (s : State) : Result := .next (s.skipIf (s.readV x != nn))

/-- SE Vx, Vy (rule R76). -/
def execSeReg (x y : Reg) (s : State) : Result := .next (s.skipIf (s.readV x == s.readV y))

/-- SNE Vx, Vy (rule R77). -/
def execSneReg (x y : Reg) (s : State) : Result := .next (s.skipIf (s.readV x != s.readV y))

end Sys2Proof.Machine
end

