-- ==== Sys2Proof/Machine/Keypad.lean ====
section
/-! DEFINITION. The keypad's scan logic and the key skips (44_keypad.md). -/

namespace Sys2Proof.Machine

/-- isDown(k): none is InvalidKey (rule R106). -/
def State.isDown (s : State) (k : Nat) : Option Bool := if h : k < 16 then some (s.key[k]'h) else none

/-- Key[k] <- down: none is InvalidKey, no state change (rule R104, rule R105). -/
def State.setKey (s : State) (k : Nat) (down : Bool) : Option State :=
  if h : k < 16 then some { s with key := s.key.set k down h } else none

/-- press(k) (rule R104). -/
def State.press (s : State) (k : Nat) : Option State := s.setKey k true

/-- release(k) (rule R105). -/
def State.release (s : State) (k : Nat) : Option State := s.setKey k false

/-- firstPressed(): the lowest key that is down; none is NoKeyPressed (rule R107). -/
def State.firstPressed (s : State) : Option Nat :=
  (List.range 16).find? (fun k => s.isDown k == some true)

/-- The key skip of rule R108 and rule R109: V[x] is the key identity, not masked; an identity of 16 or more
is logged and does not skip; otherwise skip when the key's state is `want`. -/
def keySkip (x : Reg) (want : Bool) (s : State) : State :=
  match s.isDown (s.readV x).toNat with
  | none => s.logEvent (.invalidKey (s.readV x))
  | some down => s.skipIf (down == want)

/-- SKP Vx (rule R108). -/
def execSkp (x : Reg) (s : State) : Result := .next (keySkip x true s)

/-- SKNP Vx (rule R109). -/
def execSknp (x : Reg) (s : State) : Result := .next (keySkip x false s)

end Sys2Proof.Machine
end

