-- ==== Sys2Proof/Machine/Fx.lean ====
section
/-! DEFINITION. Timer, key-wait, index and memory-block instructions (45_fx.md). -/

namespace Sys2Proof.Machine

/-- LD Vx, DT (rule R110). -/
def execLdVxDt (x : Reg) (s : State) : Result := .next (s.setV x s.dt)

/-- LD Vx, K (rule R111): with no key down, pc goes back by 2, to this instruction. -/
def execLdVxK (x : Reg) (s : State) : Result :=
  match s.firstPressed with
  | none => .next (s.setPc (s.pc - 2))
  | some k => .next (s.setV x (BitVec.ofNat 8 k))

/-- LD DT, Vx (rule R112). -/
def execLdDtVx (x : Reg) (s : State) : Result := .next { s with dt := s.readV x }

/-- LD ST, Vx (rule R113). -/
def execLdStVx (x : Reg) (s : State) : Result := .next { s with st := s.readV x }

/-- ADD I, Vx (rule R114): modulo 2^16, no flag. -/
def execAddIVx (x : Reg) (s : State) : Result := .next (s.setI (s.i + zextByte (s.readV x)))

/-- LD F, Vx (rule R115). -/
def execLdFVx (x : Reg) (s : State) : Result := .next (s.setI (glyphAddress s.cfg (s.readV x)))

/-- LD B, Vx (rule R116). -/
def execLdBVx (x : Reg) (s : State) : Result :=
  .next (storeBytes s.i.toNat (bcdDigits (s.readV x)) s)

/-- The advance of I after a whole block transfer: `I <- (I + x + 1) mod 2^16`; a transfer that stopped early
leaves I (rule R117, rule R118). -/
def advanceIndex (x : Reg) (moved : State × Bool) : State :=
  if moved.2 then moved.1.setI (moved.1.i + BitVec.ofNat 16 (x.toNat + 1)) else moved.1

/-- LD [I], Vx (rule R117). -/
def execStoreVx (x : Reg) (s : State) : Result :=
  .next (advanceIndex x (storeRegs s.i.toNat (List.range (x.toNat + 1)) s))

/-- LD Vx, [I] (rule R118). -/
def execLoadVx (x : Reg) (s : State) : Result :=
  .next (advanceIndex x (loadRegs s.i.toNat (List.range (x.toNat + 1)) s))

end Sys2Proof.Machine
end

