-- ==== Sys2Proof/Machine/Index.lean ====
section
/-! DEFINITION. Index load, jump with offset, random (42_index_random.md). -/

namespace Sys2Proof.Machine

/-- LD I, nnn (rule R91). -/
def execLdI (nnn : Addr12) (s : State) : Result := .next (s.setI (zext16 nnn))

/-- JP V0, nnn (rule R92): a 16-bit sum, no mask. -/
def execJpV0 (nnn : Addr12) (s : State) : Result :=
  .next (s.setPc (zext16 nnn + zextByte (s.readV 0)))

/-- `draw_rand()`: the next byte of the environment, a free value, and the state that has drawn it
(rule R94; log entry 2). -/
def drawRand (s : State) : Byte × State := (Config.freeByte s.draws, { s with draws := s.draws + 1 })

/-- CXNN with the drawn byte r (rule R93). -/
def randomMask (x : Reg) (nn r : Byte) (s : State) : State := s.setV x (r &&& nn)

/-- RND Vx, nn (rule R93): one byte is drawn per execution (rule R94). -/
def execRnd (x : Reg) (nn : Byte) (s : State) : Result :=
  .next (randomMask x nn (drawRand s).1 (drawRand s).2)

end Sys2Proof.Machine
end

