-- ==== Sys2Proof/Syntax.lean ====
section
/-! DEFINITION. The 34 instructions of spec/opcode_table.json (30_encoding.md rule R63), one
constructor per row, in the table's order. A word that matches no row is no instruction:
Decode.lean's `Decoded.unimplemented` (rule R64). -/

namespace Sys2Proof

/-- One instruction with its operand fields (30_encoding.md rule R59 and rule R61). Registers, addresses
and immediates have exactly their field's width; the row count of `drw` is a count, bounded by
`WellFormed` to the 0 to 15 of rule R60. -/
inductive Instr where
  /-- `00E0` CLS (rule R70). -/
  | cls
  /-- `00EE` RET (rule R71). -/
  | ret
  /-- `1NNN` JP nnn (rule R72). -/
  | jp (nnn : Addr12)
  /-- `2NNN` CALL nnn (rule R73). -/
  | call (nnn : Addr12)
  /-- `3XNN` SE Vx, nn (rule R74). -/
  | seImm (x : Reg) (nn : Byte)
  /-- `4XNN` SNE Vx, nn (rule R75). -/
  | sneImm (x : Reg) (nn : Byte)
  /-- `5XY0` SE Vx, Vy (rule R76). -/
  | seReg (x y : Reg)
  /-- `6XNN` LD Vx, nn (rule R78). -/
  | ldImm (x : Reg) (nn : Byte)
  /-- `7XNN` ADD Vx, nn (rule R79). -/
  | addImm (x : Reg) (nn : Byte)
  /-- `8XY0` LD Vx, Vy (rule R81). -/
  | ldReg (x y : Reg)
  /-- `8XY1` OR Vx, Vy (rule R82). -/
  | orReg (x y : Reg)
  /-- `8XY2` AND Vx, Vy (rule R83). -/
  | andReg (x y : Reg)
  /-- `8XY3` XOR Vx, Vy (rule R84). -/
  | xorReg (x y : Reg)
  /-- `8XY4` ADD Vx, Vy (rule R85). -/
  | addReg (x y : Reg)
  /-- `8XY5` SUB Vx, Vy (rule R86). -/
  | subReg (x y : Reg)
  /-- `8XY6` SHR Vx, Vy; `y` is encoded and ignored (rule R87). -/
  | shr (x y : Reg)
  /-- `8XY7` SUBN Vx, Vy (rule R88). -/
  | subn (x y : Reg)
  /-- `8XYE` SHL Vx, Vy; `y` is encoded and ignored (rule R89). -/
  | shl (x y : Reg)
  /-- `9XY0` SNE Vx, Vy (rule R77). -/
  | sneReg (x y : Reg)
  /-- `ANNN` LD I, nnn (rule R91). -/
  | ldI (nnn : Addr12)
  /-- `BNNN` JP V0, nnn (rule R92). -/
  | jpV0 (nnn : Addr12)
  /-- `CXNN` RND Vx, nn (rule R93). -/
  | rnd (x : Reg) (nn : Byte)
  /-- `DXYN` DRW Vx, Vy, n (rule R103). -/
  | drw (x y : Reg) (n : Nat)
  /-- `EX9E` SKP Vx (rule R108). -/
  | skp (x : Reg)
  /-- `EXA1` SKNP Vx (rule R109). -/
  | sknp (x : Reg)
  /-- `FX07` LD Vx, DT (rule R110). -/
  | ldVxDt (x : Reg)
  /-- `FX0A` LD Vx, K (rule R111). -/
  | ldVxK (x : Reg)
  /-- `FX15` LD DT, Vx (rule R112). -/
  | ldDtVx (x : Reg)
  /-- `FX18` LD ST, Vx (rule R113). -/
  | ldStVx (x : Reg)
  /-- `FX1E` ADD I, Vx (rule R114). -/
  | addIVx (x : Reg)
  /-- `FX29` LD F, Vx (rule R115). -/
  | ldFVx (x : Reg)
  /-- `FX33` LD B, Vx (rule R116). -/
  | ldBVx (x : Reg)
  /-- `FX55` LD [I], Vx (rule R117). -/
  | storeVx (x : Reg)
  /-- `FX65` LD Vx, [I] (rule R118). -/
  | loadVx (x : Reg)
  deriving DecidableEq, Repr

end Sys2Proof
end

