-- ==== Sys2Proof/Decode.lean ====
section
/-! DEFINITION. Decoding and encoding (30_encoding.md): field views (rule R59), the opcode map (rule R63)
keyed by the high nibble and a secondary key matched in full (rule R62, rule R65), and the encoder written
from the same formats (rule R61). Every word decodes: to its one instruction, or to UNIMPLEMENTED by name
(rule R64, rule R67). Each constructor's decoding of a word written out from the spec's pattern is a test
in Tests/Slice0.lean. -/

namespace Sys2Proof

/-- What a word decodes to. UNIMPLEMENTED is no row of the opcode table, so it is no `Instr`; it has a
meaning of its own (30_encoding.md rule R64). (DESIGN CHOICE of form, log entry 5; safe.) -/
inductive Decoded where
  | instr (i : Instr)
  | unimplemented (w : Word)
  deriving DecidableEq, Repr

/-- `op` = w[15:12] (rule R59). -/
def opField (w : Word) : BitVec 4 := w.extractLsb' 12 4
/-- `nnn` = w[11:0] (rule R59). -/
def nnnField (w : Word) : Addr12 := w.extractLsb' 0 12
/-- `x` = w[11:8] (rule R59). -/
def xField (w : Word) : Reg := w.extractLsb' 8 4
/-- `y` = w[7:4] (rule R59). -/
def yField (w : Word) : Reg := w.extractLsb' 4 4
/-- `nn` = w[7:0] (rule R59). -/
def nnField (w : Word) : Byte := w.extractLsb' 0 8
/-- `n` = w[3:0] (rule R59). -/
def nField (w : Word) : BitVec 4 := w.extractLsb' 0 4

/-- High nibble 0: the word is matched whole (rule R63). -/
def decodeOp0 (w : Word) : Option Instr :=
  if w = 0x00E0 then some .cls else if w = 0x00EE then some .ret else none

/-- High nibble 8: the register ALU family, keyed by the low nibble (rule R63). -/
def decodeOp8 (x y : Reg) (n : Nat) : Option Instr :=
  match n with
  | 0x0 => some (.ldReg x y)
  | 0x1 => some (.orReg x y)
  | 0x2 => some (.andReg x y)
  | 0x3 => some (.xorReg x y)
  | 0x4 => some (.addReg x y)
  | 0x5 => some (.subReg x y)
  | 0x6 => some (.shr x y)
  | 0x7 => some (.subn x y)
  | 0xE => some (.shl x y)
  | _ => none

/-- High nibble E: the key skips, keyed by the low byte (rule R63). -/
def decodeOpE (x : Reg) (nn : Nat) : Option Instr :=
  match nn with
  | 0x9E => some (.skp x)
  | 0xA1 => some (.sknp x)
  | _ => none

/-- High nibble F: keyed by the low byte (rule R63). -/
def decodeOpF (x : Reg) (nn : Nat) : Option Instr :=
  match nn with
  | 0x07 => some (.ldVxDt x)
  | 0x0A => some (.ldVxK x)
  | 0x15 => some (.ldDtVx x)
  | 0x18 => some (.ldStVx x)
  | 0x1E => some (.addIVx x)
  | 0x29 => some (.ldFVx x)
  | 0x33 => some (.ldBVx x)
  | 0x55 => some (.storeVx x)
  | 0x65 => some (.loadVx x)
  | _ => none

/-- The opcode map (30_encoding.md rule R63): the instruction a word stands for, or none. -/
def opcodeMap (w : Word) : Option Instr :=
  match (opField w).toNat with
  | 0x0 => decodeOp0 w
  | 0x1 => some (.jp (nnnField w))
  | 0x2 => some (.call (nnnField w))
  | 0x3 => some (.seImm (xField w) (nnField w))
  | 0x4 => some (.sneImm (xField w) (nnField w))
  | 0x5 => if nField w = 0 then some (.seReg (xField w) (yField w)) else none
  | 0x6 => some (.ldImm (xField w) (nnField w))
  | 0x7 => some (.addImm (xField w) (nnField w))
  | 0x8 => decodeOp8 (xField w) (yField w) (nField w).toNat
  | 0x9 => if nField w = 0 then some (.sneReg (xField w) (yField w)) else none
  | 0xA => some (.ldI (nnnField w))
  | 0xB => some (.jpV0 (nnnField w))
  | 0xC => some (.rnd (xField w) (nnField w))
  | 0xD => some (.drw (xField w) (yField w) (nField w).toNat)
  | 0xE => decodeOpE (xField w) (nnField w).toNat
  | 0xF => decodeOpF (xField w) (nnField w).toNat
  | _ => none

/-- The decoder: total, and never a refusal (30_encoding.md rule R67). -/
def decode (w : Word) : Decoded :=
  match opcodeMap w with
  | some i => .instr i
  | none => .unimplemented w

/-- The word of two bytes in memory order, high byte first (20_memory.md rule R44). -/
def wordOfBytes (hi lo : Byte) : Word := hi ++ lo

/-- The decoder on the two bytes of an instruction, in memory order. -/
def decodeBytes (hi lo : Byte) : Decoded := decode (wordOfBytes hi lo)

/-- Format FA: op, then the 12-bit address (30_encoding.md rule R61). -/
def formatFA (op : BitVec 4) (nnn : Addr12) : Word := op ++ nnn
/-- Format FI and format FX: op, x, then the low byte (rule R61). -/
def formatFI (op : BitVec 4) (x : Reg) (nn : Byte) : Word := op ++ x ++ nn
/-- Format FR and format FD: op, x, y, then the low nibble (rule R61). -/
def formatFR (op : BitVec 4) (x y : Reg) (n : BitVec 4) : Word := op ++ x ++ y ++ n

/-- The word of an instruction (30_encoding.md rule R61 and rule R63); for a `drw` that is not well formed,
the word of its row count's low nibble. -/
def encode : Instr → Word
  | .cls => 0x00E0
  | .ret => 0x00EE
  | .jp nnn => formatFA 0x1 nnn
  | .call nnn => formatFA 0x2 nnn
  | .seImm x nn => formatFI 0x3 x nn
  | .sneImm x nn => formatFI 0x4 x nn
  | .seReg x y => formatFR 0x5 x y 0x0
  | .ldImm x nn => formatFI 0x6 x nn
  | .addImm x nn => formatFI 0x7 x nn
  | .ldReg x y => formatFR 0x8 x y 0x0
  | .orReg x y => formatFR 0x8 x y 0x1
  | .andReg x y => formatFR 0x8 x y 0x2
  | .xorReg x y => formatFR 0x8 x y 0x3
  | .addReg x y => formatFR 0x8 x y 0x4
  | .subReg x y => formatFR 0x8 x y 0x5
  | .shr x y => formatFR 0x8 x y 0x6
  | .subn x y => formatFR 0x8 x y 0x7
  | .shl x y => formatFR 0x8 x y 0xE
  | .sneReg x y => formatFR 0x9 x y 0x0
  | .ldI nnn => formatFA 0xA nnn
  | .jpV0 nnn => formatFA 0xB nnn
  | .rnd x nn => formatFI 0xC x nn
  | .drw x y n => formatFR 0xD x y (BitVec.ofNat 4 n)
  | .skp x => formatFI 0xE x 0x9E
  | .sknp x => formatFI 0xE x 0xA1
  | .ldVxDt x => formatFI 0xF x 0x07
  | .ldVxK x => formatFI 0xF x 0x0A
  | .ldDtVx x => formatFI 0xF x 0x15
  | .ldStVx x => formatFI 0xF x 0x18
  | .addIVx x => formatFI 0xF x 0x1E
  | .ldFVx x => formatFI 0xF x 0x29
  | .ldBVx x => formatFI 0xF x 0x33
  | .storeVx x => formatFI 0xF x 0x55
  | .loadVx x => formatFI 0xF x 0x65

/-- The high byte of a word, the one at the lower address (20_memory.md rule R44). -/
def highByte (w : Word) : Byte := w.extractLsb' 8 8
/-- The low byte of a word, the one at the higher address (20_memory.md rule R44). -/
def lowByte (w : Word) : Byte := w.extractLsb' 0 8

/-- The word of a row of spec/opcode_table.json whose `nbits` bits are `w`: the table's bit 0 is the word's
least significant bit, and the bits at `nbits` and above are 0. -/
def tableWord (nbits w : Nat) : Word := BitVec.ofNat 16 (w % 2 ^ nbits)

/-- The instruction the decoder reads from an instruction whose table bits are `w`, laid out in memory high
byte first; none where the decoder answers UNIMPLEMENTED. -/
def decodeTableWord (nbits w : Nat) : Option Instr :=
  match decodeBytes (highByte (tableWord nbits w)) (lowByte (tableWord nbits w)) with
  | .instr i => some i
  | .unimplemented _ => none

end Sys2Proof
end

