-- ==== Sys2Proof/Machine/Fetch.lean ====
section
/-! DEFINITION. The fetch half of the instruction cycle (30_encoding.md rule R56 to rule R58) and the
meaning of UNIMPLEMENTED (rule R64). -/

namespace Sys2Proof.Machine

/-- The word at pc, high byte first; none when either byte read is OutOfBounds, that is when
pc + 1 >= 4096 (rule R56, rule R57; 20_memory.md rule R44). -/
def fetchWord (s : State) : Option Word :=
  match s.memRead s.pc.toNat, s.memRead (s.pc.toNat + 1) with
  | some hi, some lo => some (wordOfBytes hi lo)
  | _, _ => none

/-- What a successful fetch does besides reading: `pc <- pc + 2` (rule R58), and the model's own record that a
step has been taken (log entry 6). -/
def preIncrement (s : State) : State := { s with pc := s.pc + 2, started := true }

/-- UNIMPLEMENTED: logged, no state change, execution goes on at the advanced pc (rule R64). -/
def execUnimplemented (w : Word) (s : State) : Result := .next (s.logEvent (.unimplemented w))

/-- Store a word high byte first; a byte at or above 4096 is not stored. -/
def storeWord (s : State) (a : Nat) (w : Word) : State :=
  let s' := (s.memWrite a (highByte w)).getD s
  (s'.memWrite (a + 1) (lowByte w)).getD s'

end Sys2Proof.Machine
end

