-- ==== Sys2Proof/Machine/Step.lean ====
section
/-! DEFINITION. One step of the interpreter (30_encoding.md rule R56). -/

namespace Sys2Proof.Machine

/-- One fetch-decode-execute cycle (30_encoding.md rule R56). With the fault set the interpreter has no step
(10_state.md rule R32): `step` answers that fault. A fetch out of bounds is itself a step, to the state that
records the fault and changes nothing else (rule R57). (Log entry 3.) -/
def step (s : State) : Host.Outcome State Fault Refusal :=
  match s.fault with
  | some f => .fault f
  | none =>
    match fetchWord s with
    | none => .next (takeFetchFault s)
    | some w =>
      match decode w with
      | .instr i => exec i (preIncrement s)
      | .unimplemented u => execUnimplemented u (preIncrement s)

/-- `s` with the instruction of the table bits `w` stored at pc, high byte first, where `step` fetches its
next instruction. It stands for a program that loadProgram placed there (log entry 8). -/
def State.withFetchWord (s : State) (nbits w : Nat) : State := storeWord s s.pc.toNat (tableWord nbits w)

end Sys2Proof.Machine
end

