-- ==== Sys2Proof/Machine/Timer.lean ====
section
/-! DEFINITION. The timer clock (60_exceptions.md rule R131 to rule R136): the second step kind of the block,
run only when the host calls tick. -/

namespace Sys2Proof.Machine

/-- A countdown register after k whole steps: it saturates at 0 (rule R131, rule R133). -/
def countDown (k : Nat) (t : Byte) : Byte := BitVec.ofNat 8 (t.toNat - min k t.toNat)

/-- toneEdges(): the state with the latch moved, startTone and stopTone (rule R134). -/
def toneEdges (s : State) : State × Bool × Bool :=
  let now := s.st != 0
  ({ s with toneLatch := now }, now && !s.toneLatch, s.toneLatch && !now)

/-- The timers after `elapsed` more nanoseconds: whole steps of STEP_NS are counted, the remainder is carried
(rule R131). -/
def advanceTimers (elapsed : Nat) (s : State) : State :=
  let total := s.acc + elapsed
  let steps := total / s.cfg.stepNs
  { s with acc := total % s.cfg.stepNs, dt := countDown steps s.dt, st := countDown steps s.st }

/-- tick(elapsed): the state after it, startTone and stopTone (rule R131). -/
def tick (elapsed : Nat) (s : State) : State × Bool × Bool := toneEdges (advanceTimers elapsed s)

end Sys2Proof.Machine
end

