-- ==== Sys2Proof/Machine/HostPort.lean ====
section
/-! DEFINITION. The block's interface: the host transactions of 60_exceptions.md rule R139, each atomic and
between steps and ticks. The interpreter's step is one of them; a run of the block is any list of them
(rule R136: the interleaving is free). -/

namespace Sys2Proof.Machine

/-- The transactions of 60_exceptions.md rule R139. -/
inductive Transaction where
  /-- reset (70_reset_and_hazards.md rule R145). -/
  | reset
  /-- loadProgram(bytes) (20_memory.md rule R42). -/
  | loadProgram (bytes : List Byte)
  /-- One interpreter step (30_encoding.md rule R56). -/
  | step
  /-- tick(elapsed), elapsed in nanoseconds (rule R131). -/
  | tick (elapsed : Nat)
  /-- press(k) (44_keypad.md rule R104). -/
  | press (k : Nat)
  /-- release(k) (44_keypad.md rule R105). -/
  | release (k : Nat)
  /-- isDown(k) (44_keypad.md rule R106). -/
  | isDown (k : Nat)
  /-- consumeDirty() (43_display.md rule R101). -/
  | consumeDirty
  /-- The pixel snapshot (43_display.md rule R101). -/
  | snapshot
  deriving DecidableEq, Repr

/-- What a transaction gives back to the host (60_exceptions.md rule R139). -/
inductive Reply where
  /-- Success without a value. -/
  | ok
  /-- The program of `length` bytes does not fit; the host must abort startup (20_memory.md rule R42). -/
  | programTooLarge (length : Nat)
  /-- The key identity is 16 or more (44_keypad.md rule R104 to rule R106). -/
  | invalidKey (k : Nat)
  /-- The events a step logged, oldest first. -/
  | events (logged : List LogEvent)
  /-- The tone outputs of a tick. -/
  | tone (start stop : Bool)
  /-- The state of a key. -/
  | keyState (down : Bool)
  /-- The dirty flag as it was. -/
  | dirtyFlag (wasDirty : Bool)
  /-- The 2048 pixels, row by row. -/
  | pixels (cells : List Bool)
  deriving DecidableEq, Repr

/-- The reset transaction: every piece of the spec's state to its reset value (70_reset_and_hazards.md
rule R145). The configuration belongs to the machine and stays; the log is output already given and stays; the
count of draws stays, so that no byte drawn after a reset is tied to one drawn before (log entry 9). -/
def resetAgain (s : State) : State := { State.resetWith s.cfg with log := s.log, draws := s.draws }

/-- Copy bytes to consecutive addresses from `a` on; a byte at or above 4096 is not stored. -/
def copyBytes : Nat → List Byte → State → State
  | _, [], s => s
  | a, b :: bs, s => copyBytes (a + 1) bs ((s.memWrite a b).getD s)

/-- loadProgram(bytes): none is ProgramTooLarge, memory unchanged (20_memory.md rule R42). -/
def loadProgram (bytes : List Byte) (s : State) : Option State :=
  if memSize - progBase < bytes.length then none else some (copyBytes progBase bytes s)

/-- The reply of a transaction on a key. -/
def keyReply (k : Nat) (s : State) : Option State → State × Reply
  | none => (s, .invalidKey k)
  | some t => (t, .ok)

/-- One transaction (60_exceptions.md rule R139). loadProgram is refused once a step has been taken
(rule R140, log entry 6). -/
def transact (tr : Transaction) (s : State) : Host.Outcome (State × Reply) Fault Refusal :=
  match tr with
  | .reset => .next (resetAgain s, .ok)
  | .loadProgram bytes =>
    if s.started then .refused .loadAfterFirstStep
    else
      match loadProgram bytes s with
      | none => .next (s, .programTooLarge bytes.length)
      | some t => .next (t, .ok)
  | .step =>
    match step s with
    | .next t => .next (t, .events (t.log.drop s.log.length))
    | .fault f => .fault f
    | .refused r => .refused r
  | .tick elapsed => .next ((tick elapsed s).1, .tone (tick elapsed s).2.1 (tick elapsed s).2.2)
  | .press k => .next (keyReply k s (s.press k))
  | .release k => .next (keyReply k s (s.release k))
  | .isDown k =>
    match s.isDown k with
    | none => .next (s, .invalidKey k)
    | some down => .next (s, .keyState down)
  | .consumeDirty => .next ((consumeDirty s).1, .dirtyFlag (consumeDirty s).2)
  | .snapshot => .next (s, .pixels (snapshot s))

end Sys2Proof.Machine
end

