-- ==== Sys2Proof/Safety.lean ====
section
/-! DEFINITION. The terms the statements use: the invariant of the machine, what an instruction leaves alone,
how a run ends (70_reset_and_hazards.md rule R149), and the launch premise (rule R158). -/

namespace Sys2Proof.Machine

/-! ### The invariant -/

/-- The recorded fault is the fetch fault of the pc the block stands at (30_encoding.md rule R57: pc is not
advanced, and pc + 1 >= 4096). -/
def faultAtPc (s : State) : Bool :=
  match s.fault with
  | none => true
  | some (.fetchOutOfBounds a) => a == s.pc && decide (memSize ≤ s.pc.toNat + 1)

/-- What every state of a run satisfies. `cfg`: the configuration is an admitted one (92_eei_decisions.md).
`mem`: memory is in canonical form. `sp`: SP <= 16 (10_state.md rule R22). `acc`: the accumulator is below
STEP_NS (rule R27). `pc`: pc is at most 0x10FE (rule R20). `stack`: no slot holds more than 0x1000
(40_flow.md rule R73). `fault`: a recorded fault is that of the pc (30_encoding.md rule R57). -/
structure StateInv (s : State) : Prop where
  cfg : s.cfg.Admitted
  mem : Memory.wf s.cfg s.mem = true
  sp : s.sp ≤ 16
  acc : s.acc < s.cfg.stepNs
  pc : s.pc.toNat ≤ 0x10FE
  stack : ∀ (k : Nat) (h : k < 16), (s.stack[k]'h).toNat ≤ 0x1000
  fault : faultAtPc s = true

/-! ### Frames -/

/-- The parts of the state an instruction can write. -/
inductive Part where
  | v
  | i
  | pc
  | stack
  | dt
  | st
  | display
  | mem
  | log
  | draws
  deriving DecidableEq, Repr

/-- `t` is `s` but for the listed parts. The keypad, the timer clock's private state, the fault, the
configuration and the started flag are in no list: no instruction writes them. Memory is compared byte by
byte through MemRead. -/
structure SameBut (parts : List Part) (s t : State) : Prop where
  v : .v ∉ parts → ∀ r, t.readV r = s.readV r
  i : .i ∉ parts → t.i = s.i
  pc : .pc ∉ parts → t.pc = s.pc
  sp : .stack ∉ parts → t.sp = s.sp
  stack : .stack ∉ parts → t.stack = s.stack
  dt : .dt ∉ parts → t.dt = s.dt
  st : .st ∉ parts → t.st = s.st
  pix : .display ∉ parts → t.pix = s.pix
  dirty : .display ∉ parts → t.dirty = s.dirty
  mem : .mem ∉ parts → ∀ a, t.memRead a = s.memRead a
  log : .log ∉ parts → t.log = s.log
  draws : .draws ∉ parts → t.draws = s.draws
  key : t.key = s.key
  acc : t.acc = s.acc
  toneLatch : t.toneLatch = s.toneLatch
  fault : t.fault = s.fault
  cfg : t.cfg = s.cfg
  started : t.started = s.started

/-- The parts each instruction may write (10_state.md rule R17, rule R18, rule R20 to rule R22, rule R26, rule
R30; 20_memory.md rule R46; 42_index_random.md rule R94; the log by 60_exceptions.md rule R119). -/
def partsWritten : Instr → List Part
  | .cls => [.display]
  | .ret => [.pc, .stack, .log]
  | .jp _ => [.pc]
  | .call _ => [.pc, .stack, .log]
  | .seImm _ _ => [.pc]
  | .sneImm _ _ => [.pc]
  | .seReg _ _ => [.pc]
  | .ldImm _ _ => [.v]
  | .addImm _ _ => [.v]
  | .ldReg _ _ => [.v]
  | .orReg _ _ => [.v]
  | .andReg _ _ => [.v]
  | .xorReg _ _ => [.v]
  | .addReg _ _ => [.v]
  | .subReg _ _ => [.v]
  | .shr _ _ => [.v]
  | .subn _ _ => [.v]
  | .shl _ _ => [.v]
  | .sneReg _ _ => [.pc]
  | .ldI _ => [.i]
  | .jpV0 _ => [.pc]
  | .rnd _ _ => [.v, .draws]
  | .drw _ _ _ => [.v, .display, .log]
  | .skp _ => [.pc, .log]
  | .sknp _ => [.pc, .log]
  | .ldVxDt _ => [.v]
  | .ldVxK _ => [.v, .pc]
  | .ldDtVx _ => [.dt]
  | .ldStVx _ => [.st]
  | .addIVx _ => [.i]
  | .ldFVx _ => [.i]
  | .ldBVx _ => [.mem, .log]
  | .storeVx _ => [.mem, .i, .log]
  | .loadVx _ => [.v, .i, .log]

/-- The V registers each instruction may write: its destination, and VF where it is an implicit output
(10_state.md rule R17 and rule R18). -/
def mayWriteV (i : Instr) (r : Reg) : Prop :=
  match i with
  | .cls | .ret | .jp _ | .call _ | .seImm _ _ | .sneImm _ _ | .seReg _ _ | .sneReg _ _ => False
  | .ldI _ | .jpV0 _ | .skp _ | .sknp _ | .ldDtVx _ | .ldStVx _ | .addIVx _ | .ldFVx _ => False
  | .ldBVx _ | .storeVx _ => False
  | .ldImm x _ | .addImm x _ | .ldReg x _ | .rnd x _ | .ldVxDt x | .ldVxK x => r = x
  | .orReg x _ | .andReg x _ | .xorReg x _ | .addReg x _ | .subReg x _ => r = x ∨ r = vf
  | .shr x _ | .subn x _ | .shl x _ => r = x ∨ r = vf
  | .drw _ _ _ => r = vf
  | .loadVx x => r.toNat ≤ x.toNat

/-- The instruction executes to a next state, and that state satisfies `post`. -/
def Completes (i : Instr) (s : State) (post : State → Prop) : Prop := ∃ t, exec i s = .next t ∧ post t

/-- The pixel (px, py) lies, after wrapping, under a 1 bit of the first `rows` rows of the sprite at I, drawn
with its origin at (V[x], V[y]) (43_display.md rule R99). -/
def UnderSprite (s : State) (x y : Reg) (rows px py : Nat) : Prop :=
  ∃ r c b, r < rows ∧ c < 8 ∧ s.memRead (s.i.toNat + r) = some b ∧ b.getLsbD (7 - c) = true ∧
    ((s.readV x).toNat + c) % 64 = px % 64 ∧ ((s.readV y).toNat + r) % 32 = py % 32

/-! ### The end of a run -/

/-- faulted (70_reset_and_hazards.md rule R149). -/
def faulted (s : State) : Bool := s.fault.isSome

/-- parked at a: no fault, pc = a, and the word at a is a jump to itself (rule R149). -/
def parkedAt (a : Addr12) (s : State) : Bool :=
  s.fault.isNone && s.pc == zext16 a && fetchWord s == some (0x1000 ||| zext16 a)

/-- waiting: the word at pc is FX0A and no key is down (rule R149). -/
def waiting (s : State) : Bool :=
  (match fetchWord s with
   | some w => w &&& 0xF0FF == 0xF00A
   | none => false) && s.firstPressed.isNone

/-! ### Ticks in a row -/

/-- The state after ticks that report the listed times in turn, with nothing between them. -/
def afterTicks : List Nat → State → State
  | [], s => s
  | elapsed :: later, s => afterTicks later (tick elapsed s).1

/-! ### The launch premise -/

/-- CleanLaunch(prog): reset, then a successful loadProgram(prog), with no step yet taken
(70_reset_and_hazards.md rule R158). The rule names neither the event log nor the model's count of draws: they are
taken as at construction, `log = []` and `draws = 0`, so a launch after a restart that kept a nonempty log or a nonzero
count (`resetAgain`) is no CleanLaunch. (DESIGN CHOICE, log entry 21; unsafe where it is read as covering every
restart.) -/
def CleanLaunch (prog : List Byte) (s : State) : Prop :=
  s.cfg.Admitted ∧ loadProgram prog (State.resetWith s.cfg) = some s

/-- The states a block with an admitted configuration reaches by any list of transactions. -/
inductive Reachable : State → Prop
  | reset (c : Config) (h : c.Admitted) : Reachable (State.resetWith c)
  | transact (tr : Transaction) (s t : State) (r : Reply) (h : Reachable s)
      (ht : Sys2Proof.Machine.transact tr s = .next (t, r)) : Reachable t

end Sys2Proof.Machine
end

