-- ==== Sys2Proof/Certificates/Slice0/Obligations.lean ====
section
/-! DEFINITION. The statements for the provers, each with the rule of spec/ it formalises. `Completes i s post`
says that exec of i at s answers a next state and what that state satisfies; `SameBut parts s t` is the frame.
exec runs on the pre-incremented pc (30_encoding.md rule R58), so the instruction stands at s.pc - 2. -/

open Sys2Proof Sys2Proof.Machine

/-! ### Encoding (30_encoding.md) -/

/-- Words written out from the spec's patterns decode to their instructions, and words next to them to
UNIMPLEMENTED. The patterns are the spec's own supply (92_eei_decisions.md D2, D10; log entry 13). -/
def Obligations.SampleWordsDecode : Prop :=
  decode 0x00E0 = .instr .cls ∧ decode 0x00EE = .instr .ret ∧ decode 0x1ABC = .instr (.jp 0xABC) ∧
    decode 0x2456 = .instr (.call 0x456) ∧ decode 0x3122 = .instr (.seImm 1 0x22) ∧
    decode 0x6A3E = .instr (.ldImm 0xA 0x3E) ∧ decode 0x8124 = .instr (.addReg 1 2) ∧
    decode 0x812E = .instr (.shl 1 2) ∧ decode 0xA300 = .instr (.ldI 0x300) ∧
    decode 0xC10F = .instr (.rnd 1 0x0F) ∧ decode 0xD125 = .instr (.drw 1 2 5) ∧
    decode 0xE19E = .instr (.skp 1) ∧ decode 0xF355 = .instr (.storeVx 3) ∧
    decode 0x5121 = .unimplemented 0x5121 ∧ decode 0x0123 = .unimplemented 0x0123

/-- Decoding the word of a well-formed instruction, or its two bytes in memory order, gives the instruction
back, with every operand at every value. -/
def Obligations.DecodeEncodeRoundTrip : Prop :=
  ∀ i : Instr, WellFormed i →
    decode (encode i) = .instr i ∧ decodeBytes (highByte (encode i)) (lowByte (encode i)) = .instr i

/-- A word that decodes to an instruction is the word of that instruction, which is well formed: every word has
at most one reading. -/
def Obligations.EncodeDecodeRoundTrip : Prop :=
  ∀ (w : Word) (i : Instr), decode w = .instr i → WellFormed i ∧ encode i = w

/-- The words that decode to UNIMPLEMENTED are exactly those of rule R64's list, and they decode to it under
their own value. The list rests on the bit patterns the spec supplies (92_eei_decisions.md D2, D10). -/
def Obligations.UnimplementedWordsExactly : Prop :=
  ∀ w : Word,
    ((∃ u, decode w = .unimplemented u) ↔
      (w.toNat / 4096 = 0 ∧ w.toNat ≠ 0x00E0 ∧ w.toNat ≠ 0x00EE) ∨
        ((w.toNat / 4096 = 5 ∨ w.toNat / 4096 = 9) ∧ w.toNat % 16 ≠ 0) ∨
        (w.toNat / 4096 = 8 ∧ w.toNat % 16 ∈ [0x8, 0x9, 0xA, 0xB, 0xC, 0xD, 0xF]) ∨
        (w.toNat / 4096 = 0xE ∧ w.toNat % 256 ≠ 0x9E ∧ w.toNat % 256 ≠ 0xA1) ∨
        (w.toNat / 4096 = 0xF ∧
          w.toNat % 256 ∉ [0x07, 0x0A, 0x15, 0x18, 0x1E, 0x29, 0x33, 0x55, 0x65])) ∧
      ∀ u, decode w = .unimplemented u → u = w

/-! ### The instruction cycle (30_encoding.md, 60_exceptions.md) -/

/-- A step on an unimplemented word logs it and goes on at pc + 2; nothing else changes (but the model's own
record that a step was taken, log entry 6). -/
def Obligations.UnimplementedStepOnlyLogs : Prop :=
  ∀ (s : State) (w : Word), s.fault = none → fetchWord s = some w → decode w = .unimplemented w →
    step s = .next { s with pc := s.pc + 2, started := true, log := s.log ++ [.unimplemented w] }

/-- When the two bytes at pc, the first one high, are the word of an instruction i, the step is exec of i at the
state with pc advanced by 2 (and the model's own started flag set, log entry 6). -/
def Obligations.StepRunsDecodedInstruction : Prop :=
  ∀ (s : State) (hi lo : Byte) (i : Instr), s.fault = none →
    s.memRead s.pc.toNat = some hi → s.memRead (s.pc.toNat + 1) = some lo →
    decode (BitVec.ofNat 16 (hi.toNat * 256 + lo.toNat)) = .instr i →
    step s = exec i { s with pc := s.pc + 2, started := true }

/-- A fetch with pc + 1 >= 4096 records the fault and changes nothing else; after it the interpreter has no
step, and every other transaction still answers (loadProgram where no step was taken). The spec's own decision
D8 (log entry 3). -/
def Obligations.FetchOutOfBoundsStops : Prop :=
  ∀ s : State, s.fault = none → 4096 ≤ s.pc.toNat + 1 →
    ∃ t, step s = .next t ∧ t = { s with fault := some (.fetchOutOfBounds s.pc) } ∧
      step t = .fault (.fetchOutOfBounds s.pc) ∧
      ∀ tr, tr ≠ .step → ((∃ bytes, tr = .loadProgram bytes) → s.started = false) →
        ∃ u r, transact tr t = .next (u, r)

/-- The recorded fault is the only thing that stops the interpreter: without one, every step answers a next
state, whatever failure its instruction meets; with one, every step answers it. -/
def Obligations.OnlyRecordedFaultStops : Prop :=
  ∀ s : State, (s.fault = none → ∃ t, step s = .next t) ∧ ∀ f, s.fault = some f → step s = .fault f

/-- The fault is set only by a fetch with pc + 1 >= 4096 and cleared only by reset. The spec's own decision D8. -/
def Obligations.FaultSetByFetchClearedByReset : Prop :=
  (∀ s t, step s = .next t →
    t.fault = if 4096 ≤ s.pc.toNat + 1 then some (.fetchOutOfBounds s.pc) else none) ∧
  (∀ tr s t r, transact tr s = .next (t, r) → tr ≠ .step → tr ≠ .reset → t.fault = s.fault) ∧
  ∀ s t r, transact .reset s = .next (t, r) → t.fault = none

/-! ### Reset and the invariant (10_state.md, 70_reset_and_hazards.md) -/

/-- The reset table, for every admitted configuration, and the defaults of the machine's own reset, the 80 glyph
bytes among them. The values of pc, dirty, acc, toneLatch and fault are the spec's own decisions D6, D7, D8 and
D22, the defaults D4, D5 and D19; the glyph bytes are its general-knowledge supply (log entry 13). -/
def Obligations.ResetTableHolds : Prop :=
  (∀ c : Config, c.Admitted →
    ∀ s, s = State.resetWith c →
      (∀ r, s.readV r = 0) ∧ s.i = 0 ∧ s.pc = 0x200 ∧ s.sp = 0 ∧ (∀ (k : Nat) (h : k < 16), s.stack[k] = 0) ∧
      s.dt = 0 ∧ s.st = 0 ∧ (∀ k, k < 16 → s.isDown k = some false) ∧
      (∀ x y, s.getPixel x y = false) ∧ s.dirty = true ∧ s.acc = 0 ∧ s.toneLatch = false ∧ s.fault = none ∧
      (∀ (j : Nat) (h : j < 80), s.memRead (c.fontBase + j) = some (c.fontData[j])) ∧
      ∀ a, a < 4096 → (a < c.fontBase ∨ c.fontBase + 80 ≤ a) → s.memRead a = some 0) ∧
  State.reset = State.resetWith Config.default ∧ Config.default.Admitted ∧
  Config.default.fontBase = 0 ∧ Config.default.stepNs = 16666666 ∧
  Config.default.fontData.toList =
      [0xF0, 0x90, 0x90, 0x90, 0xF0,
       0x20, 0x60, 0x20, 0x20, 0x70,
       0xF0, 0x10, 0xF0, 0x80, 0xF0,
       0xF0, 0x10, 0xF0, 0x10, 0xF0,
       0x90, 0x90, 0xF0, 0x10, 0x10,
       0xF0, 0x80, 0xF0, 0x10, 0xF0,
       0xF0, 0x80, 0xF0, 0x90, 0xF0,
       0xF0, 0x10, 0x20, 0x40, 0x40,
       0xF0, 0x90, 0xF0, 0x90, 0xF0,
       0xF0, 0x90, 0xF0, 0x10, 0xF0,
       0xF0, 0x90, 0xF0, 0x90, 0x90,
       0xE0, 0x90, 0xE0, 0x90, 0xE0,
       0xF0, 0x80, 0x80, 0x80, 0xF0,
       0xE0, 0x90, 0x90, 0x90, 0xE0,
       0xF0, 0x80, 0xF0, 0x80, 0xF0,
       0xF0, 0x80, 0xF0, 0x80, 0x80]

/-- A restart is the same as a construction: the reset transaction gives the reset state of the machine's
configuration, but for the log already given and the model's count of draws (log entry 9). -/
def Obligations.RestartIsConstruction : Prop :=
  ∀ s : State, transact .reset s =
    .next ({ State.resetWith s.cfg with log := s.log, draws := s.draws }, .ok)

/-- The reset state of every admitted configuration, the default one among them, meets the invariant. -/
def Obligations.ResetMeetsInvariant : Prop :=
  (∀ c : Config, c.Admitted → StateInv (State.resetWith c)) ∧ StateInv State.reset

/-- Every step keeps the invariant: memory stays canonical, SP at most 16, pc at most 0x10FE, stack slots at most
0x1000, acc below STEP_NS, and a recorded fault stays that of the pc. -/
def Obligations.StepKeepsInvariant : Prop := ∀ s t : State, StateInv s → step s = .next t → StateInv t

/-- Every transaction of the block (steps, ticks and the host's) keeps the invariant, so every schedule does. -/
def Obligations.TransactionsKeepInvariant : Prop :=
  ∀ (tr : Transaction) (s t : State) (r : Reply), StateInv s → transact tr s = .next (t, r) → StateInv t

/-- Every state that a block with an admitted configuration reaches from reset, by any schedule of steps, ticks and
host transactions, meets the invariant. -/
def Obligations.ReachableStatesMeetInvariant : Prop := ∀ s : State, Reachable s → StateInv s

/-! ### What instructions leave alone (10_state.md, 20_memory.md) -/

/-- Every instruction leaves every part of the state alone but those the spec lists for it. -/
def Obligations.InstructionWriteSets : Prop :=
  ∀ (i : Instr) (s t : State), exec i s = .next t → SameBut (partsWritten i) s t

/-- Every V register but an instruction's destination, and VF where it is an implicit output, keeps its value. -/
def Obligations.RegisterWriteSets : Prop :=
  ∀ (i : Instr) (s t : State) (r : Reg), exec i s = .next t → ¬mayWriteV i r → t.readV r = s.readV r

/-- After an instruction that writes VF implicitly, VF is 0 or 1, unless the instruction is a shift of VF itself:
8FY6 leaves 0 and 8FYE leaves 0 or 2 (the spec's own decisions D11 to D13). -/
def Obligations.ImplicitFlagIsZeroOrOne : Prop :=
  ∀ (x y : Reg) (n : Nat) (s t : State),
    (∀ i, i ∈ [.orReg x y, .andReg x y, .xorReg x y, .addReg x y, .subReg x y, .subn x y, .drw x y n] →
      exec i s = .next t → t.readV vf = 0 ∨ t.readV vf = 1) ∧
    (∀ i, i ∈ [Instr.shr x y, .shl x y] → x ≠ vf → exec i s = .next t → t.readV vf = 0 ∨ t.readV vf = 1) ∧
    (exec (.shr vf y) s = .next t → t.readV vf = 0) ∧
    (exec (.shl vf y) s = .next t → t.readV vf = 0 ∨ t.readV vf = 2)

/-- The ways pc changes inside an instruction: a skip adds 2, jumps and calls set nnn, BNNN sets nnn + V0, RET a
popped slot, FX0A goes back by 2; every other instruction leaves the pre-incremented pc. -/
def Obligations.PcChangesOnlyAsListed : Prop :=
  ∀ (i : Instr) (s t : State), exec i s = .next t →
    t.pc = s.pc ∨
    (t.pc = s.pc + 2 ∧ ((∃ x nn, i = .seImm x nn ∨ i = .sneImm x nn) ∨ (∃ x y, i = .seReg x y ∨ i = .sneReg x y) ∨
      ∃ x, i = .skp x ∨ i = .sknp x)) ∨
    (∃ nnn, (i = .jp nnn ∨ i = .call nnn) ∧ t.pc.toNat = nnn.toNat) ∨
    (∃ nnn, i = .jpV0 nnn ∧ t.pc.toNat = nnn.toNat + (s.readV 0).toNat) ∨
    (i = .ret ∧ ∃ (k : Nat) (h : k < 16), s.sp = k + 1 ∧ t.pc = s.stack[k]) ∨
    (t.pc = s.pc - 2 ∧ ∃ x, i = .ldVxK x)

/-! ### Flow (40_flow.md) -/

/-- CLS zeroes every pixel and marks dirty; everything else is unchanged. -/
def Obligations.ClsClearsTheDisplay : Prop :=
  ∀ s : State, Completes .cls s fun t =>
    (∀ x y, t.getPixel x y = false) ∧ t.dirty = true ∧ SameBut [.display] s t

/-- RET: with an empty stack it only logs StackUnderflow at its own address; otherwise it pops pc, lowers SP by 1
and leaves the slot's value (that a popped slot keeps its value is the spec's own decision D25, log entry 14). -/
def Obligations.RetPopsOrFallsThrough : Prop :=
  (∀ s : State, s.sp = 0 → Completes .ret s fun t =>
    t.log = s.log ++ [.stackUnderflow (s.pc - 2)] ∧ SameBut [.log] s t) ∧
  ∀ (s : State) (k : Nat) (h : k < 16), s.sp = k + 1 → Completes .ret s fun t =>
    t.pc = s.stack[k] ∧ t.sp = k ∧ t.stack = s.stack ∧ SameBut [.pc, .stack] s t

/-- JP nnn sets pc to nnn and changes nothing else. -/
def Obligations.JpSetsPc : Prop :=
  ∀ (s : State) (nnn : Addr12), Completes (.jp nnn) s fun t => t.pc.toNat = nnn.toNat ∧ SameBut [.pc] s t

/-- CALL nnn: with a full stack it only logs StackOverflow at its own address; otherwise it stores the
pre-incremented pc in the next slot, raises SP by 1 and sets pc to nnn. -/
def Obligations.CallPushesOrFallsThrough : Prop :=
  (∀ (s : State) (nnn : Addr12), s.sp = 16 → Completes (.call nnn) s fun t =>
    t.log = s.log ++ [.stackOverflow (s.pc - 2)] ∧ SameBut [.log] s t) ∧
  ∀ (s : State) (nnn : Addr12) (k : Nat) (h : k < 16), s.sp = k → Completes (.call nnn) s fun t =>
    t.stack[k] = s.pc ∧ (∀ (j : Nat) (hj : j < 16), j ≠ k → t.stack[j] = s.stack[j]) ∧ t.sp = k + 1 ∧
      t.pc.toNat = nnn.toNat ∧ SameBut [.pc, .stack] s t

/-- SE Vx, nn and SNE Vx, nn: pc goes on by 2 more exactly when V[x] = nn, or V[x] ≠ nn; nothing else changes. -/
def Obligations.SkipsOnImmediate : Prop :=
  ∀ (s : State) (x : Reg) (nn : Byte),
    (Completes (.seImm x nn) s fun t =>
      (s.readV x = nn → t.pc = s.pc + 2) ∧ (s.readV x ≠ nn → t.pc = s.pc) ∧ SameBut [.pc] s t) ∧
    Completes (.sneImm x nn) s fun t =>
      (s.readV x ≠ nn → t.pc = s.pc + 2) ∧ (s.readV x = nn → t.pc = s.pc) ∧ SameBut [.pc] s t

/-- SE Vx, Vy and SNE Vx, Vy: pc goes on by 2 more exactly when V[x] = V[y], or V[x] ≠ V[y]; nothing else
changes. -/
def Obligations.SkipsOnRegisters : Prop :=
  ∀ (s : State) (x y : Reg),
    (Completes (.seReg x y) s fun t =>
      (s.readV x = s.readV y → t.pc = s.pc + 2) ∧ (s.readV x ≠ s.readV y → t.pc = s.pc) ∧ SameBut [.pc] s t) ∧
    Completes (.sneReg x y) s fun t =>
      (s.readV x ≠ s.readV y → t.pc = s.pc + 2) ∧ (s.readV x = s.readV y → t.pc = s.pc) ∧ SameBut [.pc] s t

/-! ### Arithmetic (41_alu.md) -/

/-- LD Vx, nn writes nn; ADD Vx, nn writes the sum modulo 256 and no flag: every other register, VF too where
x ≠ F, keeps its value. -/
def Obligations.ImmediateLoadAndAdd : Prop :=
  ∀ (s : State) (x : Reg) (nn : Byte),
    (Completes (.ldImm x nn) s fun t =>
      t.readV x = nn ∧ (∀ r, r ≠ x → t.readV r = s.readV r) ∧ SameBut [.v] s t) ∧
    Completes (.addImm x nn) s fun t =>
      (t.readV x).toNat = ((s.readV x).toNat + nn.toNat) % 256 ∧ (∀ r, r ≠ x → t.readV r = s.readV r) ∧
        SameBut [.v] s t

/-- LD Vx, Vy copies V[y]; no flag. -/
def Obligations.RegisterLoadCopies : Prop :=
  ∀ (s : State) (x y : Reg), Completes (.ldReg x y) s fun t =>
    t.readV x = s.readV y ∧ (∀ r, r ≠ x → t.readV r = s.readV r) ∧ SameBut [.v] s t

/-- OR, AND and XOR combine the old V[x] and V[y] bit by bit and leave VF = 0, for x = F too (the spec's own
decision D12). -/
def Obligations.LogicClearsFlag : Prop :=
  ∀ (s : State) (x y : Reg),
    (Completes (.orReg x y) s fun t =>
      t.readV vf = 0 ∧ (x ≠ vf → ∀ k, k < 8 →
        (t.readV x).getLsbD k = ((s.readV x).getLsbD k || (s.readV y).getLsbD k)) ∧
      (∀ r, r ≠ x → r ≠ vf → t.readV r = s.readV r) ∧ SameBut [.v] s t) ∧
    (Completes (.andReg x y) s fun t =>
      t.readV vf = 0 ∧ (x ≠ vf → ∀ k, k < 8 →
        (t.readV x).getLsbD k = ((s.readV x).getLsbD k && (s.readV y).getLsbD k)) ∧
      (∀ r, r ≠ x → r ≠ vf → t.readV r = s.readV r) ∧ SameBut [.v] s t) ∧
    Completes (.xorReg x y) s fun t =>
      t.readV vf = 0 ∧ (x ≠ vf → ∀ k, k < 8 →
        (t.readV x).getLsbD k = ((s.readV x).getLsbD k != (s.readV y).getLsbD k)) ∧
      (∀ r, r ≠ x → r ≠ vf → t.readV r = s.readV r) ∧ SameBut [.v] s t

/-- ADD Vx, Vy: the sum of the old values modulo 256, and VF = 1 exactly when it exceeds 255; the old VF is no
carry in, and for x = F the flag is what remains (the spec's own decisions D11 and D14). -/
def Obligations.AddRegSetsCarry : Prop :=
  ∀ (s : State) (x y : Reg), Completes (.addReg x y) s fun t =>
    (x ≠ vf → (t.readV x).toNat = ((s.readV x).toNat + (s.readV y).toNat) % 256) ∧
    (t.readV vf).toNat = ((s.readV x).toNat + (s.readV y).toNat) / 256 ∧
    (∀ r, r ≠ x → r ≠ vf → t.readV r = s.readV r) ∧ SameBut [.v] s t

/-- SUB Vx, Vy and SUBN Vx, Vy: the difference modulo 256, and VF = 1 exactly when minuend >= subtrahend; for
x = F the flag is what remains (the spec's own decision D11). -/
def Obligations.SubtractsSetNoBorrow : Prop :=
  ∀ (s : State) (x y : Reg),
    (Completes (.subReg x y) s fun t =>
      (x ≠ vf → (t.readV x).toNat = (256 + (s.readV x).toNat - (s.readV y).toNat) % 256) ∧
      t.readV vf = (if (s.readV y).toNat ≤ (s.readV x).toNat then 1 else 0) ∧
      (∀ r, r ≠ x → r ≠ vf → t.readV r = s.readV r) ∧ SameBut [.v] s t) ∧
    Completes (.subn x y) s fun t =>
      (x ≠ vf → (t.readV x).toNat = (256 + (s.readV y).toNat - (s.readV x).toNat) % 256) ∧
      t.readV vf = (if (s.readV x).toNat ≤ (s.readV y).toNat then 1 else 0) ∧
      (∀ r, r ≠ x → r ≠ vf → t.readV r = s.readV r) ∧ SameBut [.v] s t

/-- SHR and SHL shift V[x] in place, whatever y names, and leave the bit shifted out in VF; for x = F the flag
just written is what is shifted (the spec's own decision D13). -/
def Obligations.ShiftsCaptureTheBitFirst : Prop :=
  ∀ (s : State) (x y : Reg),
    (Completes (.shr x y) s fun t =>
      (x ≠ vf → (t.readV x).toNat = (s.readV x).toNat / 2 ∧ (t.readV vf).toNat = (s.readV x).toNat % 2) ∧
      (x = vf → t.readV vf = 0) ∧ (∀ r, r ≠ x → r ≠ vf → t.readV r = s.readV r) ∧ SameBut [.v] s t) ∧
    Completes (.shl x y) s fun t =>
      (x ≠ vf → (t.readV x).toNat = (s.readV x).toNat * 2 % 256 ∧ (t.readV vf).toNat = (s.readV x).toNat / 128) ∧
      (x = vf → (t.readV vf).toNat = 2 * ((s.readV vf).toNat / 128)) ∧
      (∀ r, r ≠ x → r ≠ vf → t.readV r = s.readV r) ∧ SameBut [.v] s t

/-! ### Index, jump with offset, random (42_index_random.md) -/

/-- LD I, nnn sets I to nnn; JP V0, nnn sets pc to nnn + V0, with no mask; nothing else changes. -/
def Obligations.IndexLoadAndJumpWithOffset : Prop :=
  ∀ (s : State) (nnn : Addr12),
    (Completes (.ldI nnn) s fun t => t.i.toNat = nnn.toNat ∧ SameBut [.i] s t) ∧
    Completes (.jpV0 nnn) s fun t => t.pc.toNat = nnn.toNat + (s.readV 0).toNat ∧ SameBut [.pc] s t

/-- RND Vx, nn draws one byte, a free value, and writes it under the mask nn: V[x] has no bit outside nn (0 for
nn = 0, the draw itself for nn = 0xFF), and the count of draws goes up by 1 (the spec's own decision D21, log
entry 2). -/
def Obligations.RandomIsMaskedDraw : Prop :=
  ∀ (s : State) (x : Reg) (nn : Byte), Completes (.rnd x nn) s fun t =>
    (∀ k, k < 8 → (t.readV x).getLsbD k = ((Config.freeByte s.draws).getLsbD k && nn.getLsbD k)) ∧
    t.draws = s.draws + 1 ∧ (∀ r, r ≠ x → t.readV r = s.readV r) ∧ SameBut [.v, .draws] s t

/-! ### Display (43_display.md) -/

/-- togglePixel flips the wrapped cell and no other, marks dirty and answers whether the cell was lit; nothing
else changes. A second toggle at coordinates of the same cell restores every pixel and answers the opposite. -/
def Obligations.ToggleFlipsReportsAndUndoes : Prop :=
  ∀ (s : State) (x y : Nat),
    (togglePixel x y s).2 = s.getPixel x y ∧ (togglePixel x y s).1.dirty = true ∧
    (∀ px py, (togglePixel x y s).1.getPixel px py =
      if px % 64 = x % 64 ∧ py % 32 = y % 32 then !s.getPixel px py else s.getPixel px py) ∧
    SameBut [.display] s (togglePixel x y s).1 ∧
    ∀ x' y', x' % 64 = x % 64 → y' % 32 = y % 32 →
      (∀ px py, (togglePixel x' y' (togglePixel x y s).1).1.getPixel px py = s.getPixel px py) ∧
      (togglePixel x' y' (togglePixel x y s).1).2 = !(togglePixel x y s).2

/-- DRW with n = 0 draws nothing: VF = 0, the display and its dirty flag unchanged (the spec's own decision
D16). -/
def Obligations.DrawWithZeroRowsClearsFlag : Prop :=
  ∀ (s : State) (x y : Reg), Completes (.drw x y 0) s fun t =>
    t.readV vf = 0 ∧ (∀ r, r ≠ vf → t.readV r = s.readV r) ∧ SameBut [.v] s t

/-- DRW with 1 to 15 rows: the rows are clamped to those whose byte exists, a cut being logged; exactly the pixels
under a 1 bit of the sprite, wrapped, are flipped; VF = 1 exactly when one of them was lit before, 0 otherwise;
dirty is set when there is one and kept otherwise (the spec's own decisions D15 and D16). -/
def Obligations.DrawXorsTheSprite : Prop :=
  ∀ (s : State) (x y : Reg) (n rows : Nat), 1 ≤ n → n ≤ 15 →
    rows = (if 4096 ≤ s.i.toNat then 0 else if 4096 < s.i.toNat + n then 4096 - s.i.toNat else n) →
    Completes (.drw x y n) s fun t =>
      (∀ px py, UnderSprite s x y rows px py → t.getPixel px py = !s.getPixel px py) ∧
      (∀ px py, ¬UnderSprite s x y rows px py → t.getPixel px py = s.getPixel px py) ∧
      ((∃ px py, UnderSprite s x y rows px py ∧ s.getPixel px py = true) → t.readV vf = 1) ∧
      ((∀ px py, UnderSprite s x y rows px py → s.getPixel px py = false) → t.readV vf = 0) ∧
      ((∃ px py, UnderSprite s x y rows px py) → t.dirty = true) ∧
      ((∀ px py, ¬UnderSprite s x y rows px py) → t.dirty = s.dirty) ∧
      t.log = s.log ++ (if rows = n then [] else [.spriteTruncated s.i n rows]) ∧
      (∀ r, r ≠ vf → t.readV r = s.readV r) ∧ SameBut [.v, .display, .log] s t

/-- consumeDirty answers the dirty flag and clears it, and changes nothing else; the snapshot answers the 2048
pixels, cell y * 64 + x being getPixel(x, y), and changes nothing (the order is the spec's own decision D26). -/
def Obligations.HostReadsTheDisplay : Prop :=
  ∀ s : State,
    transact .consumeDirty s = .next ({ s with dirty := false }, .dirtyFlag s.dirty) ∧
    ∃ cells, transact .snapshot s = .next (s, .pixels cells) ∧ cells.length = 2048 ∧
      ∀ x y, x < 64 → y < 32 → cells[y * 64 + x]? = some (s.getPixel x y)

/-! ### Keypad (44_keypad.md) -/

/-- SKP and SKNP: with V[x] a key identity k, pc goes on by 2 more exactly when key k is down, or is not; with
V[x] >= 16, InvalidKey is logged and neither skips. -/
def Obligations.KeySkipsTestTheKeypad : Prop :=
  (∀ (s : State) (x : Reg) (k : Nat) (h : k < 16), (s.readV x).toNat = k →
    (Completes (.skp x) s fun t => t.pc = (if s.key[k] then s.pc + 2 else s.pc) ∧ SameBut [.pc] s t) ∧
    Completes (.sknp x) s fun t => t.pc = (if s.key[k] then s.pc else s.pc + 2) ∧ SameBut [.pc] s t) ∧
  ∀ (s : State) (x : Reg), 16 ≤ (s.readV x).toNat →
    (Completes (.skp x) s fun t => t.log = s.log ++ [.invalidKey (s.readV x)] ∧ SameBut [.log] s t) ∧
    Completes (.sknp x) s fun t => t.log = s.log ++ [.invalidKey (s.readV x)] ∧ SameBut [.log] s t

/-- firstPressed answers k exactly when k is the lowest key that is down, and nothing exactly when no key is. -/
def Obligations.FirstPressedIsLowest : Prop :=
  ∀ s : State,
    (∀ k, s.firstPressed = some k ↔ ∃ h : k < 16, s.key[k] = true ∧ ∀ j, j < k → s.isDown j = some false) ∧
    (s.firstPressed = none ↔ ∀ (k : Nat) (h : k < 16), s.key[k] = false)

/-- The host's key transactions: press and release set that key and nothing else, and do nothing when it is
already so; isDown answers it; on an identity of 16 or more each answers InvalidKey and changes nothing. -/
def Obligations.HostKeyTransactions : Prop :=
  ∀ (s : State) (k : Nat),
    (∀ h : k < 16,
      (∃ t, transact (.press k) s = .next (t, .ok) ∧ t = { s with key := s.key.set k true } ∧
        (s.key[k] = true → t = s)) ∧
      (∃ t, transact (.release k) s = .next (t, .ok) ∧ t = { s with key := s.key.set k false } ∧
        (s.key[k] = false → t = s)) ∧
      transact (.isDown k) s = .next (s, .keyState s.key[k])) ∧
    (16 ≤ k →
      transact (.press k) s = .next (s, .invalidKey k) ∧ transact (.release k) s = .next (s, .invalidKey k) ∧
      transact (.isDown k) s = .next (s, .invalidKey k))

/-! ### The FX family (45_fx.md) -/

/-- FX07 copies DT to V[x]; FX15 copies V[x] to DT and FX18 to ST; each changes nothing else, the timer clock's
accumulator and latch among it. -/
def Obligations.TimerRegisterCopies : Prop :=
  ∀ (s : State) (x : Reg),
    (Completes (.ldVxDt x) s fun t =>
      t.readV x = s.dt ∧ (∀ r, r ≠ x → t.readV r = s.readV r) ∧ SameBut [.v] s t) ∧
    (Completes (.ldDtVx x) s fun t => t.dt = s.readV x ∧ SameBut [.dt] s t) ∧
    Completes (.ldStVx x) s fun t => t.st = s.readV x ∧ SameBut [.st] s t

/-- FX0A: with no key down pc goes back by 2, to the instruction itself, and nothing else changes; otherwise V[x]
gets the lowest key that is down, and pc stays. -/
def Obligations.WaitForKeyRewindsOrLoads : Prop :=
  (∀ (s : State) (x : Reg), (∀ k, k < 16 → s.isDown k = some false) → Completes (.ldVxK x) s fun t =>
    t.pc = s.pc - 2 ∧ SameBut [.pc] s t) ∧
  ∀ (s : State) (x : Reg) (k : Nat), s.isDown k = some true → (∀ j, j < k → s.isDown j = some false) →
    Completes (.ldVxK x) s fun t =>
      (t.readV x).toNat = k ∧ (∀ r, r ≠ x → t.readV r = s.readV r) ∧ SameBut [.v] s t

/-- FX1E adds V[x] to I modulo 2^16 and touches no flag (the modulus is the spec's own decision D18). -/
def Obligations.AddToIndexWraps : Prop :=
  ∀ (s : State) (x : Reg), Completes (.addIVx x) s fun t =>
    t.i.toNat = (s.i.toNat + (s.readV x).toNat) % 65536 ∧ SameBut [.i] s t

/-- FX29 sets I to FONT_BASE + 5 * (V[x] and 0xF), for every admitted FONT_BASE; the upper nibble of V[x] plays no
part and nothing else changes. -/
def Obligations.GlyphAddressOfLowNibble : Prop :=
  ∀ (s : State) (x : Reg), s.cfg.fontBase + 80 ≤ 0x200 → Completes (.ldFVx x) s fun t =>
    t.i.toNat = s.cfg.fontBase + (s.readV x).toNat % 16 * 5 ∧ SameBut [.i] s t

/-- FX33: each of the three digits, hundreds first, is stored at I + j where that address exists, and logged as
OutOfBounds where it does not; every other byte and everything else is unchanged (writing the digits one by one is
the spec's own decision D17). -/
def Obligations.BcdStoresEachDigit : Prop :=
  ∀ (s : State) (x : Reg), Completes (.ldBVx x) s fun t =>
    (s.i.toNat < 4096 → t.memRead s.i.toNat = some (BitVec.ofNat 8 ((s.readV x).toNat / 100))) ∧
    (s.i.toNat + 1 < 4096 → t.memRead (s.i.toNat + 1) = some (BitVec.ofNat 8 ((s.readV x).toNat / 10 % 10))) ∧
    (s.i.toNat + 2 < 4096 → t.memRead (s.i.toNat + 2) = some (BitVec.ofNat 8 ((s.readV x).toNat % 10))) ∧
    (∀ a, a < s.i.toNat ∨ s.i.toNat + 3 ≤ a → t.memRead a = s.memRead a) ∧
    t.log = s.log ++ ([s.i.toNat, s.i.toNat + 1, s.i.toNat + 2].filter (fun a => 4096 ≤ a)).map .outOfBounds ∧
    SameBut [.mem, .log] s t

/-- FX55: V0 to V[x] go to I onward. When all the bytes exist, I advances by x + 1; otherwise the bytes below 4096
are stored, the first address past them is logged as OutOfBounds, and I stays. Every other byte and everything
else is unchanged. -/
def Obligations.BlockStoreStopsAtTheEnd : Prop :=
  ∀ (s : State) (x : Reg), Completes (.storeVx x) s fun t =>
    (∀ r : Reg, r.toNat ≤ x.toNat → s.i.toNat + r.toNat < 4096 →
      t.memRead (s.i.toNat + r.toNat) = some (s.readV r)) ∧
    (∀ a, a < s.i.toNat ∨ s.i.toNat + x.toNat < a → t.memRead a = s.memRead a) ∧
    (s.i.toNat + x.toNat < 4096 → t.i.toNat = s.i.toNat + x.toNat + 1 ∧ SameBut [.mem, .i] s t) ∧
    (4096 ≤ s.i.toNat + x.toNat →
      t.log = s.log ++ [.outOfBounds (max s.i.toNat 4096)] ∧ SameBut [.mem, .log] s t)

/-- FX65: V0 to V[x] come from I onward. When all the bytes exist, I advances by x + 1; otherwise the registers
whose byte is below 4096 are loaded, the first address past them is logged as OutOfBounds, and the other registers
and I stay. Everything else is unchanged. -/
def Obligations.BlockLoadStopsAtTheEnd : Prop :=
  ∀ (s : State) (x : Reg), Completes (.loadVx x) s fun t =>
    (∀ r : Reg, r.toNat ≤ x.toNat → s.i.toNat + r.toNat < 4096 →
      s.memRead (s.i.toNat + r.toNat) = some (t.readV r)) ∧
    (∀ r : Reg, x.toNat < r.toNat ∨ 4096 ≤ s.i.toNat + r.toNat → t.readV r = s.readV r) ∧
    (s.i.toNat + x.toNat < 4096 → t.i.toNat = s.i.toNat + x.toNat + 1 ∧ SameBut [.v, .i] s t) ∧
    (4096 ≤ s.i.toNat + x.toNat →
      t.log = s.log ++ [.outOfBounds (max s.i.toNat 4096)] ∧ SameBut [.v, .log] s t)

/-! ### The timer clock and the host (60_exceptions.md, 20_memory.md, 70_reset_and_hazards.md) -/

/-- A tick of k whole steps takes min(k, value) from each timer, independently, and carries the remainder, which is
below STEP_NS; among the instructions DT is written only by FX15 and ST only by FX18, and no instruction changes the
accumulator or the latch. STEP_NS is positive, as in every admitted configuration. -/
def Obligations.TickCountsTimersDown : Prop :=
  (∀ (s : State) (elapsed k : Nat), 0 < s.cfg.stepNs → k = (s.acc + elapsed) / s.cfg.stepNs →
    ∃ t start stop, transact (.tick elapsed) s = .next (t, .tone start stop) ∧
      t.dt.toNat = s.dt.toNat - min k s.dt.toNat ∧ t.st.toNat = s.st.toNat - min k s.st.toNat ∧
      t.acc = (s.acc + elapsed) % s.cfg.stepNs ∧ t.acc < s.cfg.stepNs ∧
      t = { s with dt := t.dt, st := t.st, acc := t.acc, toneLatch := t.toneLatch }) ∧
  ∀ (i : Instr) (s t : State), exec i s = .next t →
    (t.dt ≠ s.dt → ∃ x, i = .ldDtVx x) ∧ (t.st ≠ s.st → ∃ x, i = .ldStVx x) ∧ t.acc = s.acc ∧
      t.toneLatch = s.toneLatch

/-- A tick reports startTone exactly when ST is nonzero after it and the latch was clear, stopTone exactly when ST
is zero after it and the latch was set, never both, and latches whether ST is nonzero (the spec's own decision
D20). -/
def Obligations.TickReportsToneEdges : Prop :=
  ∀ (s : State) (elapsed : Nat), ∃ t start stop,
    transact (.tick elapsed) s = .next (t, .tone start stop) ∧
    (start = true ↔ t.st ≠ 0 ∧ s.toneLatch = false) ∧ (stop = true ↔ t.st = 0 ∧ s.toneLatch = true) ∧
    ¬(start = true ∧ stop = true) ∧ (t.toneLatch = true ↔ t.st ≠ 0)

/-- With acc = 0, a feed of exactly STEP_NS takes 1 from each nonzero timer and a feed of 0 takes nothing; and a
sound timer found nonzero with the latch clear sets startTone on that tick and on no later tick, whatever times the
later ticks report; a tick of 0 right after it changes nothing and reports no edge (the spec's own decisions D19 and
D20). -/
def Obligations.OneStepFeedAndOneStartTone : Prop :=
  ∀ s : State, s.acc = 0 → 0 < s.cfg.stepNs →
    (∃ t r, transact (.tick s.cfg.stepNs) s = .next (t, r) ∧ t.dt.toNat = s.dt.toNat - 1 ∧
      t.st.toNat = s.st.toNat - 1) ∧
    ∃ t start, transact (.tick 0) s = .next (t, .tone start (s.st == 0 && s.toneLatch)) ∧ t.dt = s.dt ∧ t.st = s.st ∧
      (s.st ≠ 0 → s.toneLatch = false → start = true ∧
        transact (.tick 0) t = .next (t, .tone false false) ∧
        ∀ (earlier : List Nat) (elapsed : Nat), ∃ u stop,
          transact (.tick elapsed) (afterTicks earlier t) = .next (u, .tone false stop))

/-- loadProgram, before the first step: up to 3584 bytes are copied to 0x200 onward, every other byte and all other
state unchanged; a longer program changes nothing and answers ProgramTooLarge. -/
def Obligations.LoadProgramCopiesOrFails : Prop :=
  ∀ (s : State) (bytes : List Byte), s.started = false →
    (bytes.length ≤ 3584 → ∃ t, transact (.loadProgram bytes) s = .next (t, .ok) ∧
      (∀ (j : Nat) (h : j < bytes.length), t.memRead (0x200 + j) = some bytes[j]) ∧
      (∀ a, a < 0x200 ∨ 0x200 + bytes.length ≤ a → t.memRead a = s.memRead a) ∧ t = { s with mem := t.mem }) ∧
    (3584 < bytes.length → transact (.loadProgram bytes) s = .next (s, .programTooLarge bytes.length))

/-- After a step with a fetch in bounds, loadProgram is refused, and it stays so under every transaction but
reset, which allows it again (the spec's own decision D28, log entry 6). -/
def Obligations.LoadAfterFirstStepRefused : Prop :=
  (∀ s t : State, s.pc.toNat + 1 < 4096 → step s = .next t → t.started = true) ∧
  (∀ (s : State) (bytes : List Byte), s.started = true →
    transact (.loadProgram bytes) s = .refused .loadAfterFirstStep) ∧
  (∀ (tr : Transaction) (s t : State) (r : Reply), tr ≠ .reset → transact tr s = .next (t, r) →
    s.started = true → t.started = true) ∧
  ∀ (s t : State) (r : Reply), transact .reset s = .next (t, r) → t.started = false

/-- What CleanLaunch(prog) gives: the reset values, prog at 0x200, FONT_DATA at FONT_BASE, 0 elsewhere, and a length
of at most 3584. That the log is empty is the model's choice of launch (log entry 21), and started is the model's own
record of the rule's "no step yet taken" (log entry 6). -/
def Obligations.CleanLaunchState : Prop :=
  ∀ (prog : List Byte) (s : State), CleanLaunch prog s →
    s.fault = none ∧ s.pc = 0x200 ∧ s.sp = 0 ∧ (∀ r, s.readV r = 0) ∧ s.i = 0 ∧ s.dt = 0 ∧ s.st = 0 ∧
    s.firstPressed = none ∧ (∀ x y, s.getPixel x y = false) ∧ s.acc = 0 ∧ s.toneLatch = false ∧
    s.log = [] ∧ s.started = false ∧ prog.length ≤ 3584 ∧
    (∀ (j : Nat) (h : j < prog.length), s.memRead (0x200 + j) = some prog[j]) ∧
    (∀ (j : Nat) (h : j < 80), s.memRead (s.cfg.fontBase + j) = some (s.cfg.fontData[j])) ∧
    ∀ a, a < 4096 → (a < s.cfg.fontBase ∨ s.cfg.fontBase + 80 ≤ a) → (a < 0x200 ∨ 0x200 + prog.length ≤ a) →
      s.memRead a = some 0

/-- A write below 4096 is read back, and changes no other byte and no other state; at 4096 and above both read and
write fail, with no next state, so memory is unchanged. It holds of every state. -/
def Obligations.MemoryReadAfterWrite : Prop :=
  ∀ (s : State) (a : Nat) (v : Byte),
    (a < 4096 → ∃ t, s.memWrite a v = some t ∧ t.memRead a = some v ∧ (∀ b, b ≠ a → t.memRead b = s.memRead b) ∧
      t = { s with mem := t.mem }) ∧
    (4096 ≤ a → s.memWrite a v = none ∧ s.memRead a = none)

/-- The call stack is last in, first out: two pushes and two pops give the second value, then the first, and the
depth it had; a push at depth 16 and a pop at depth 0 fail. -/
def Obligations.StackIsLastInFirstOut : Prop :=
  (∀ (s : State) (v1 v2 : Word), s.sp + 2 ≤ 16 →
    ∃ s1 s2 s3 s4, s.stackPush v1 = some s1 ∧ s1.stackPush v2 = some s2 ∧ s2.sp = s.sp + 2 ∧
      s2.stackPop = some (v2, s3) ∧ s3.stackPop = some (v1, s4) ∧ s4.sp = s.sp) ∧
  (∀ (s : State) (v : Word), s.sp = 16 → s.stackPush v = none) ∧ ∀ s : State, s.sp = 0 → s.stackPop = none

/-- A parked state stays parked, and a waiting state without a fault stays where it is: the step changes nothing but
the model's started flag (the definitions of parked and waiting are the spec's own decision D29). -/
def Obligations.ParkedAndWaitingStatesStay : Prop :=
  (∀ (a : Addr12) (s : State), parkedAt a s = true →
    step s = .next { s with started := true } ∧ parkedAt a { s with started := true } = true) ∧
  ∀ s : State, s.fault = none → waiting s = true →
    step s = .next { s with started := true } ∧ waiting { s with started := true } = true

/-! ### What the interpreter never reads (10_state.md rule R25 to rule R27, rule R30, rule R36) -/

/-- No rule reads the log: from a state with another log the step gives the same state, with the same events
appended to that log, or the same fault. -/
def Obligations.LogIsNeverRead : Prop :=
  ∀ (s : State) (other : List LogEvent),
    (∀ t, step s = .next t → ∃ events, t.log = s.log ++ events ∧
      step { s with log := other } = .next { t with log := other ++ events }) ∧
    ∀ f, step s = .fault f → step { s with log := other } = .fault f

/-- The interpreter reads neither ST, nor the timer clock's accumulator and latch, nor the dirty flag: from a state
that differs in them alone the step gives a state that differs in them alone, ST and dirty being either both
written alike or both kept, acc and the latch always kept. -/
def Obligations.HostOnlyStateIsNeverRead : Prop :=
  ∀ (s t : State) (st : Byte) (dirty latch : Bool) (acc : Nat), step s = .next t →
    ∃ st' dirty',
      step { s with st := st, dirty := dirty, acc := acc, toneLatch := latch } =
        .next { t with st := st', dirty := dirty', acc := acc, toneLatch := latch } ∧
      ((st' = st ∧ t.st = s.st) ∨ st' = t.st) ∧ ((dirty' = dirty ∧ t.dirty = s.dirty) ∨ dirty' = t.dirty) ∧
      t.acc = s.acc ∧ t.toneLatch = s.toneLatch

/-- No rule reads a stack slot at SP or above: from states whose live slots agree, the step gives states that are
equal but for the stack, whose live slots agree again. -/
def Obligations.StackAboveSpIsNeverRead : Prop :=
  ∀ (s t : State) (other : Vector Word 16), s.sp ≤ 16 →
    (∀ (k : Nat) (h : k < 16), k < s.sp → other[k] = s.stack[k]) → step s = .next t →
    ∃ other', step { s with stack := other } = .next { t with stack := other' } ∧
      ∀ (k : Nat) (h : k < 16), k < t.sp → other'[k] = t.stack[k]

/-- A word stored by FX55 is fetched as stored by a later step: after it, at any pc whose two bytes are among the
stored ones, the fetch gives the two registers' bytes, high byte first (the spec's own decision D27). -/
def Obligations.StoredCodeIsFetched : Prop :=
  ∀ (s : State) (x : Reg) (p : Word) (r : Reg), r.toNat + 1 ≤ x.toNat → s.i.toNat + x.toNat < 4096 →
    p.toNat = s.i.toNat + r.toNat →
    Completes (.storeVx x) s fun t =>
      fetchWord { t with pc := p } =
        some (BitVec.ofNat 16 ((s.readV r).toNat * 256 + (s.readV (r + 1)).toNat))
end

