-- ==== Sys2Proof/Laws/Memory.lean ====
section
/-! SUPPORT. Memory: a read after a write, and that every memory operation keeps the canonical form. -/

namespace Sys2Proof.Machine

/-! ### Lookups -/

@[simp] theorem Memory.lookup_insert (a b : Nat) (v : Byte) (m : List Host.Cell) :
    Memory.lookup b (Memory.insert a v m) = if b = a then some v else Memory.lookup b m := by
  induction m with
  | nil => by_cases h : b = a <;> simp [Memory.insert, Memory.lookup, h]
  | cons p m ih =>
    obtain ⟨k, c⟩ := p
    simp only [Memory.insert]
    split
    · by_cases h : b = a <;> simp [Memory.lookup, h]
    · split
      · rename_i h; subst h
        by_cases h : b = a <;> simp [Memory.lookup, h]
      · rename_i h1 h2
        simp only [Memory.lookup, ih]
        by_cases hk : b = k
        · have hka : k ≠ a := fun e => h2 e.symm
          simp [hk, hka]
        · simp [hk]

@[simp] theorem Memory.lookup_erase (a b : Nat) (m : List Host.Cell) :
    Memory.lookup b (Memory.erase a m) = if b = a then none else Memory.lookup b m := by
  induction m with
  | nil => by_cases h : b = a <;> simp [Memory.erase, Memory.lookup, h]
  | cons p m ih =>
    obtain ⟨k, c⟩ := p
    simp only [Memory.erase]
    split
    · rename_i h; subst h
      by_cases h : b = a
      · subst h; simp [ih]
      · simp [Memory.lookup, h, ih]
    · rename_i h2
      by_cases hk : b = k
      · have hka : k ≠ a := fun e => h2 e.symm
        simp [Memory.lookup, hk, hka]
      · simp [Memory.lookup, hk, ih]

/-- A read of a byte after a store of one: the stored byte at its address, the old byte elsewhere. It holds of
every list, canonical or not. -/
@[simp] theorem Memory.byteAt_put (c : Config) (m : List Host.Cell) (a b : Nat) (v : Byte) :
    Memory.byteAt c (Memory.put c a v m) b = if b = a then v else Memory.byteAt c m b := by
  unfold Memory.byteAt Memory.put
  by_cases hv : v = resetByte c a
  · by_cases h : b = a <;> simp [hv, h]
  · by_cases h : b = a <;> simp [hv, h]

/-! ### The canonical form -/

/-- An entry of a list after an insertion is the new one or an old one. -/
theorem Memory.mem_insert {a : Nat} {v : Byte} {m : List Host.Cell} {p : Host.Cell}
    (h : p ∈ Memory.insert a v m) : p = (a, v) ∨ p ∈ m := by
  induction m with
  | nil => simpa [Memory.insert] using h
  | cons q m ih =>
    obtain ⟨k, c⟩ := q
    simp only [Memory.insert] at h
    split at h
    · simpa using h
    · split at h
      · rcases List.mem_cons.1 h with h | h
        · exact .inl h
        · exact .inr (List.mem_cons_of_mem _ h)
      · rcases List.mem_cons.1 h with h | h
        · exact .inr (h ▸ List.mem_cons_self)
        · exact (ih h).imp_right (List.mem_cons_of_mem _)

/-- An erasure leaves a sublist. -/
theorem Memory.erase_sublist (a : Nat) (m : List Host.Cell) : (Memory.erase a m).Sublist m := by
  induction m with
  | nil => exact List.Sublist.refl _
  | cons p m ih =>
    obtain ⟨k, c⟩ := p
    simp only [Memory.erase]
    split
    · exact ih.cons _
    · exact ih.cons_cons _

/-- An insertion keeps the addresses rising. -/
theorem Memory.insert_sorted (a : Nat) (v : Byte) (m : List Host.Cell)
    (h : m.Pairwise (fun p q => p.1 < q.1)) :
    (Memory.insert a v m).Pairwise (fun p q => p.1 < q.1) := by
  induction m with
  | nil => simp [Memory.insert]
  | cons p m ih =>
    obtain ⟨k, c⟩ := p
    rw [List.pairwise_cons] at h
    simp only [Memory.insert]
    split
    · rename_i hak
      refine List.pairwise_cons.2 ⟨fun q hq => ?_, List.pairwise_cons.2 h⟩
      rcases List.mem_cons.1 hq with rfl | hq
      · exact hak
      · exact Nat.lt_trans hak (h.1 q hq)
    · split
      · rename_i hak
        exact List.pairwise_cons.2 ⟨fun q hq => hak ▸ h.1 q hq, h.2⟩
      · rename_i h1 h2
        refine List.pairwise_cons.2 ⟨fun q hq => ?_, ih h.2⟩
        rcases Memory.mem_insert hq with rfl | hq
        · show k < a
          omega
        · exact h.1 q hq

/-- The canonical form in words. -/
theorem Memory.wf_iff (c : Config) (m : List Host.Cell) :
    Memory.wf c m = true ↔
      m.Pairwise (fun p q => p.1 < q.1) ∧ ∀ p ∈ m, p.1 < memSize ∧ p.2 ≠ resetByte c p.1 := by
  simp [Memory.wf]

/-- A store to an address of memory keeps the canonical form. -/
theorem Memory.wf_put (c : Config) (m : List Host.Cell) (a : Nat) (v : Byte) (ha : a < memSize)
    (h : Memory.wf c m = true) : Memory.wf c (Memory.put c a v m) = true := by
  rw [Memory.wf_iff] at h ⊢
  unfold Memory.put
  split
  · exact ⟨h.1.sublist (Memory.erase_sublist a m), fun p hp => h.2 p ((Memory.erase_sublist a m).subset hp)⟩
  · rename_i hv
    refine ⟨Memory.insert_sorted a v m h.1, fun p hp => ?_⟩
    rcases Memory.mem_insert hp with rfl | hp
    · exact ⟨ha, hv⟩
    · exact h.2 p hp

/-! ### MemRead and MemWrite -/

/-- Everything MemWrite can do: below 4096 it stores one byte in canonical form and changes nothing else. -/
theorem State.memWrite_cases {s t : State} {a : Nat} {b : Byte} (h : s.memWrite a b = some t) :
    a < memSize ∧ t = { s with mem := Memory.put s.cfg a b s.mem } := by
  unfold State.memWrite at h
  split at h
  · exact ⟨‹_›, (Option.some.inj h).symm⟩
  · exact absurd h (by simp)

theorem State.memWrite_eq_none {s : State} {a : Nat} {b : Byte} : s.memWrite a b = none ↔ memSize ≤ a := by
  unfold State.memWrite
  split <;> simp <;> omega

/-- A byte of memory after a store by MemWrite. -/
theorem State.memRead_of_memWrite {s t : State} {a : Nat} {v : Byte} (h : s.memWrite a v = some t) (b : Nat) :
    t.memRead b = if b = a then some v else s.memRead b := by
  obtain ⟨ha, rfl⟩ := State.memWrite_cases h
  simp only [State.memRead, Memory.byteAt_put]
  split <;> split <;> simp_all

/-- MemWrite keeps the canonical form. -/
theorem State.memWrite_wf {s t : State} {a : Nat} {b : Byte} (h : s.memWrite a b = some t)
    (hw : Memory.wf s.cfg s.mem = true) : Memory.wf t.cfg t.mem = true := by
  obtain ⟨ha, rfl⟩ := State.memWrite_cases h
  exact Memory.wf_put _ _ _ _ ha hw

end Sys2Proof.Machine
end

