-- ==== Sys2Proof/Laws/State.lean ====
section
/-! SUPPORT. One lemma per field per update of the state, each true by rfl, and the reads of a V register
after each update. -/

namespace Sys2Proof.Machine

/-! ### `setV` -/

@[simp] theorem State.setV_mem (s : State) (x : Reg) (b : Byte) : (s.setV x b).mem = s.mem := rfl
@[simp] theorem State.setV_v (s : State) (x : Reg) (b : Byte) : (s.setV x b).v = s.v.set x.toNat b x.isLt := rfl
@[simp] theorem State.setV_i (s : State) (x : Reg) (b : Byte) : (s.setV x b).i = s.i := rfl
@[simp] theorem State.setV_pc (s : State) (x : Reg) (b : Byte) : (s.setV x b).pc = s.pc := rfl
@[simp] theorem State.setV_sp (s : State) (x : Reg) (b : Byte) : (s.setV x b).sp = s.sp := rfl
@[simp] theorem State.setV_stack (s : State) (x : Reg) (b : Byte) : (s.setV x b).stack = s.stack := rfl
@[simp] theorem State.setV_dt (s : State) (x : Reg) (b : Byte) : (s.setV x b).dt = s.dt := rfl
@[simp] theorem State.setV_st (s : State) (x : Reg) (b : Byte) : (s.setV x b).st = s.st := rfl
@[simp] theorem State.setV_key (s : State) (x : Reg) (b : Byte) : (s.setV x b).key = s.key := rfl
@[simp] theorem State.setV_pix (s : State) (x : Reg) (b : Byte) : (s.setV x b).pix = s.pix := rfl
@[simp] theorem State.setV_dirty (s : State) (x : Reg) (b : Byte) : (s.setV x b).dirty = s.dirty := rfl
@[simp] theorem State.setV_acc (s : State) (x : Reg) (b : Byte) : (s.setV x b).acc = s.acc := rfl
@[simp] theorem State.setV_toneLatch (s : State) (x : Reg) (b : Byte) : (s.setV x b).toneLatch = s.toneLatch := rfl
@[simp] theorem State.setV_fault (s : State) (x : Reg) (b : Byte) : (s.setV x b).fault = s.fault := rfl
@[simp] theorem State.setV_cfg (s : State) (x : Reg) (b : Byte) : (s.setV x b).cfg = s.cfg := rfl
@[simp] theorem State.setV_log (s : State) (x : Reg) (b : Byte) : (s.setV x b).log = s.log := rfl
@[simp] theorem State.setV_draws (s : State) (x : Reg) (b : Byte) : (s.setV x b).draws = s.draws := rfl
@[simp] theorem State.setV_started (s : State) (x : Reg) (b : Byte) : (s.setV x b).started = s.started := rfl

/-! ### `setFlag` -/

@[simp] theorem State.setFlag_mem (s : State) (c : Bool) : (s.setFlag c).mem = s.mem := rfl
@[simp] theorem State.setFlag_v (s : State) (c : Bool) : (s.setFlag c).v = s.v.set vf.toNat (flagByte c) vf.isLt := rfl
@[simp] theorem State.setFlag_i (s : State) (c : Bool) : (s.setFlag c).i = s.i := rfl
@[simp] theorem State.setFlag_pc (s : State) (c : Bool) : (s.setFlag c).pc = s.pc := rfl
@[simp] theorem State.setFlag_sp (s : State) (c : Bool) : (s.setFlag c).sp = s.sp := rfl
@[simp] theorem State.setFlag_stack (s : State) (c : Bool) : (s.setFlag c).stack = s.stack := rfl
@[simp] theorem State.setFlag_dt (s : State) (c : Bool) : (s.setFlag c).dt = s.dt := rfl
@[simp] theorem State.setFlag_st (s : State) (c : Bool) : (s.setFlag c).st = s.st := rfl
@[simp] theorem State.setFlag_key (s : State) (c : Bool) : (s.setFlag c).key = s.key := rfl
@[simp] theorem State.setFlag_pix (s : State) (c : Bool) : (s.setFlag c).pix = s.pix := rfl
@[simp] theorem State.setFlag_dirty (s : State) (c : Bool) : (s.setFlag c).dirty = s.dirty := rfl
@[simp] theorem State.setFlag_acc (s : State) (c : Bool) : (s.setFlag c).acc = s.acc := rfl
@[simp] theorem State.setFlag_toneLatch (s : State) (c : Bool) : (s.setFlag c).toneLatch = s.toneLatch := rfl
@[simp] theorem State.setFlag_fault (s : State) (c : Bool) : (s.setFlag c).fault = s.fault := rfl
@[simp] theorem State.setFlag_cfg (s : State) (c : Bool) : (s.setFlag c).cfg = s.cfg := rfl
@[simp] theorem State.setFlag_log (s : State) (c : Bool) : (s.setFlag c).log = s.log := rfl
@[simp] theorem State.setFlag_draws (s : State) (c : Bool) : (s.setFlag c).draws = s.draws := rfl
@[simp] theorem State.setFlag_started (s : State) (c : Bool) : (s.setFlag c).started = s.started := rfl

/-! ### `setI` -/

@[simp] theorem State.setI_mem (s : State) (w : Word) : (s.setI w).mem = s.mem := rfl
@[simp] theorem State.setI_v (s : State) (w : Word) : (s.setI w).v = s.v := rfl
@[simp] theorem State.setI_i (s : State) (w : Word) : (s.setI w).i = w := rfl
@[simp] theorem State.setI_pc (s : State) (w : Word) : (s.setI w).pc = s.pc := rfl
@[simp] theorem State.setI_sp (s : State) (w : Word) : (s.setI w).sp = s.sp := rfl
@[simp] theorem State.setI_stack (s : State) (w : Word) : (s.setI w).stack = s.stack := rfl
@[simp] theorem State.setI_dt (s : State) (w : Word) : (s.setI w).dt = s.dt := rfl
@[simp] theorem State.setI_st (s : State) (w : Word) : (s.setI w).st = s.st := rfl
@[simp] theorem State.setI_key (s : State) (w : Word) : (s.setI w).key = s.key := rfl
@[simp] theorem State.setI_pix (s : State) (w : Word) : (s.setI w).pix = s.pix := rfl
@[simp] theorem State.setI_dirty (s : State) (w : Word) : (s.setI w).dirty = s.dirty := rfl
@[simp] theorem State.setI_acc (s : State) (w : Word) : (s.setI w).acc = s.acc := rfl
@[simp] theorem State.setI_toneLatch (s : State) (w : Word) : (s.setI w).toneLatch = s.toneLatch := rfl
@[simp] theorem State.setI_fault (s : State) (w : Word) : (s.setI w).fault = s.fault := rfl
@[simp] theorem State.setI_cfg (s : State) (w : Word) : (s.setI w).cfg = s.cfg := rfl
@[simp] theorem State.setI_log (s : State) (w : Word) : (s.setI w).log = s.log := rfl
@[simp] theorem State.setI_draws (s : State) (w : Word) : (s.setI w).draws = s.draws := rfl
@[simp] theorem State.setI_started (s : State) (w : Word) : (s.setI w).started = s.started := rfl

/-! ### `setPc` -/

@[simp] theorem State.setPc_mem (s : State) (w : Word) : (s.setPc w).mem = s.mem := rfl
@[simp] theorem State.setPc_v (s : State) (w : Word) : (s.setPc w).v = s.v := rfl
@[simp] theorem State.setPc_i (s : State) (w : Word) : (s.setPc w).i = s.i := rfl
@[simp] theorem State.setPc_pc (s : State) (w : Word) : (s.setPc w).pc = w := rfl
@[simp] theorem State.setPc_sp (s : State) (w : Word) : (s.setPc w).sp = s.sp := rfl
@[simp] theorem State.setPc_stack (s : State) (w : Word) : (s.setPc w).stack = s.stack := rfl
@[simp] theorem State.setPc_dt (s : State) (w : Word) : (s.setPc w).dt = s.dt := rfl
@[simp] theorem State.setPc_st (s : State) (w : Word) : (s.setPc w).st = s.st := rfl
@[simp] theorem State.setPc_key (s : State) (w : Word) : (s.setPc w).key = s.key := rfl
@[simp] theorem State.setPc_pix (s : State) (w : Word) : (s.setPc w).pix = s.pix := rfl
@[simp] theorem State.setPc_dirty (s : State) (w : Word) : (s.setPc w).dirty = s.dirty := rfl
@[simp] theorem State.setPc_acc (s : State) (w : Word) : (s.setPc w).acc = s.acc := rfl
@[simp] theorem State.setPc_toneLatch (s : State) (w : Word) : (s.setPc w).toneLatch = s.toneLatch := rfl
@[simp] theorem State.setPc_fault (s : State) (w : Word) : (s.setPc w).fault = s.fault := rfl
@[simp] theorem State.setPc_cfg (s : State) (w : Word) : (s.setPc w).cfg = s.cfg := rfl
@[simp] theorem State.setPc_log (s : State) (w : Word) : (s.setPc w).log = s.log := rfl
@[simp] theorem State.setPc_draws (s : State) (w : Word) : (s.setPc w).draws = s.draws := rfl
@[simp] theorem State.setPc_started (s : State) (w : Word) : (s.setPc w).started = s.started := rfl

/-! ### `logEvent` -/

@[simp] theorem State.logEvent_mem (s : State) (e : LogEvent) : (s.logEvent e).mem = s.mem := rfl
@[simp] theorem State.logEvent_v (s : State) (e : LogEvent) : (s.logEvent e).v = s.v := rfl
@[simp] theorem State.logEvent_i (s : State) (e : LogEvent) : (s.logEvent e).i = s.i := rfl
@[simp] theorem State.logEvent_pc (s : State) (e : LogEvent) : (s.logEvent e).pc = s.pc := rfl
@[simp] theorem State.logEvent_sp (s : State) (e : LogEvent) : (s.logEvent e).sp = s.sp := rfl
@[simp] theorem State.logEvent_stack (s : State) (e : LogEvent) : (s.logEvent e).stack = s.stack := rfl
@[simp] theorem State.logEvent_dt (s : State) (e : LogEvent) : (s.logEvent e).dt = s.dt := rfl
@[simp] theorem State.logEvent_st (s : State) (e : LogEvent) : (s.logEvent e).st = s.st := rfl
@[simp] theorem State.logEvent_key (s : State) (e : LogEvent) : (s.logEvent e).key = s.key := rfl
@[simp] theorem State.logEvent_pix (s : State) (e : LogEvent) : (s.logEvent e).pix = s.pix := rfl
@[simp] theorem State.logEvent_dirty (s : State) (e : LogEvent) : (s.logEvent e).dirty = s.dirty := rfl
@[simp] theorem State.logEvent_acc (s : State) (e : LogEvent) : (s.logEvent e).acc = s.acc := rfl
@[simp] theorem State.logEvent_toneLatch (s : State) (e : LogEvent) : (s.logEvent e).toneLatch = s.toneLatch := rfl
@[simp] theorem State.logEvent_fault (s : State) (e : LogEvent) : (s.logEvent e).fault = s.fault := rfl
@[simp] theorem State.logEvent_cfg (s : State) (e : LogEvent) : (s.logEvent e).cfg = s.cfg := rfl
@[simp] theorem State.logEvent_log (s : State) (e : LogEvent) : (s.logEvent e).log = s.log ++ [e] := rfl
@[simp] theorem State.logEvent_draws (s : State) (e : LogEvent) : (s.logEvent e).draws = s.draws := rfl
@[simp] theorem State.logEvent_started (s : State) (e : LogEvent) : (s.logEvent e).started = s.started := rfl

/-! ### `clearDisplay` -/

@[simp] theorem clearDisplay_mem (s : State) : (clearDisplay s).mem = s.mem := rfl
@[simp] theorem clearDisplay_v (s : State) : (clearDisplay s).v = s.v := rfl
@[simp] theorem clearDisplay_i (s : State) : (clearDisplay s).i = s.i := rfl
@[simp] theorem clearDisplay_pc (s : State) : (clearDisplay s).pc = s.pc := rfl
@[simp] theorem clearDisplay_sp (s : State) : (clearDisplay s).sp = s.sp := rfl
@[simp] theorem clearDisplay_stack (s : State) : (clearDisplay s).stack = s.stack := rfl
@[simp] theorem clearDisplay_dt (s : State) : (clearDisplay s).dt = s.dt := rfl
@[simp] theorem clearDisplay_st (s : State) : (clearDisplay s).st = s.st := rfl
@[simp] theorem clearDisplay_key (s : State) : (clearDisplay s).key = s.key := rfl
@[simp] theorem clearDisplay_pix (s : State) : (clearDisplay s).pix = Vector.replicate 32 (Vector.replicate 64 false) := rfl
@[simp] theorem clearDisplay_dirty (s : State) : (clearDisplay s).dirty = true := rfl
@[simp] theorem clearDisplay_acc (s : State) : (clearDisplay s).acc = s.acc := rfl
@[simp] theorem clearDisplay_toneLatch (s : State) : (clearDisplay s).toneLatch = s.toneLatch := rfl
@[simp] theorem clearDisplay_fault (s : State) : (clearDisplay s).fault = s.fault := rfl
@[simp] theorem clearDisplay_cfg (s : State) : (clearDisplay s).cfg = s.cfg := rfl
@[simp] theorem clearDisplay_log (s : State) : (clearDisplay s).log = s.log := rfl
@[simp] theorem clearDisplay_draws (s : State) : (clearDisplay s).draws = s.draws := rfl
@[simp] theorem clearDisplay_started (s : State) : (clearDisplay s).started = s.started := rfl

/-! ### `preIncrement` -/

@[simp] theorem preIncrement_mem (s : State) : (preIncrement s).mem = s.mem := rfl
@[simp] theorem preIncrement_v (s : State) : (preIncrement s).v = s.v := rfl
@[simp] theorem preIncrement_i (s : State) : (preIncrement s).i = s.i := rfl
@[simp] theorem preIncrement_pc (s : State) : (preIncrement s).pc = s.pc + 2 := rfl
@[simp] theorem preIncrement_sp (s : State) : (preIncrement s).sp = s.sp := rfl
@[simp] theorem preIncrement_stack (s : State) : (preIncrement s).stack = s.stack := rfl
@[simp] theorem preIncrement_dt (s : State) : (preIncrement s).dt = s.dt := rfl
@[simp] theorem preIncrement_st (s : State) : (preIncrement s).st = s.st := rfl
@[simp] theorem preIncrement_key (s : State) : (preIncrement s).key = s.key := rfl
@[simp] theorem preIncrement_pix (s : State) : (preIncrement s).pix = s.pix := rfl
@[simp] theorem preIncrement_dirty (s : State) : (preIncrement s).dirty = s.dirty := rfl
@[simp] theorem preIncrement_acc (s : State) : (preIncrement s).acc = s.acc := rfl
@[simp] theorem preIncrement_toneLatch (s : State) : (preIncrement s).toneLatch = s.toneLatch := rfl
@[simp] theorem preIncrement_fault (s : State) : (preIncrement s).fault = s.fault := rfl
@[simp] theorem preIncrement_cfg (s : State) : (preIncrement s).cfg = s.cfg := rfl
@[simp] theorem preIncrement_log (s : State) : (preIncrement s).log = s.log := rfl
@[simp] theorem preIncrement_draws (s : State) : (preIncrement s).draws = s.draws := rfl
@[simp] theorem preIncrement_started (s : State) : (preIncrement s).started = true := rfl

/-! ### `takeFetchFault` -/

@[simp] theorem takeFetchFault_mem (s : State) : (takeFetchFault s).mem = s.mem := rfl
@[simp] theorem takeFetchFault_v (s : State) : (takeFetchFault s).v = s.v := rfl
@[simp] theorem takeFetchFault_i (s : State) : (takeFetchFault s).i = s.i := rfl
@[simp] theorem takeFetchFault_pc (s : State) : (takeFetchFault s).pc = s.pc := rfl
@[simp] theorem takeFetchFault_sp (s : State) : (takeFetchFault s).sp = s.sp := rfl
@[simp] theorem takeFetchFault_stack (s : State) : (takeFetchFault s).stack = s.stack := rfl
@[simp] theorem takeFetchFault_dt (s : State) : (takeFetchFault s).dt = s.dt := rfl
@[simp] theorem takeFetchFault_st (s : State) : (takeFetchFault s).st = s.st := rfl
@[simp] theorem takeFetchFault_key (s : State) : (takeFetchFault s).key = s.key := rfl
@[simp] theorem takeFetchFault_pix (s : State) : (takeFetchFault s).pix = s.pix := rfl
@[simp] theorem takeFetchFault_dirty (s : State) : (takeFetchFault s).dirty = s.dirty := rfl
@[simp] theorem takeFetchFault_acc (s : State) : (takeFetchFault s).acc = s.acc := rfl
@[simp] theorem takeFetchFault_toneLatch (s : State) : (takeFetchFault s).toneLatch = s.toneLatch := rfl
@[simp] theorem takeFetchFault_fault (s : State) : (takeFetchFault s).fault = some (.fetchOutOfBounds s.pc) := rfl
@[simp] theorem takeFetchFault_cfg (s : State) : (takeFetchFault s).cfg = s.cfg := rfl
@[simp] theorem takeFetchFault_log (s : State) : (takeFetchFault s).log = s.log := rfl
@[simp] theorem takeFetchFault_draws (s : State) : (takeFetchFault s).draws = s.draws := rfl
@[simp] theorem takeFetchFault_started (s : State) : (takeFetchFault s).started = s.started := rfl

/-! ### Reads of a V register -/

/-- A V register after `setV`: the written byte at the written index, the old byte elsewhere. -/
@[simp] theorem State.readV_setV (s : State) (x r : Reg) (b : Byte) :
    (s.setV x b).readV r = if r = x then b else s.readV r := by
  unfold State.readV State.setV
  rw [Vector.getElem_set]
  by_cases h : r = x
  · simp [h]
  · have : x.toNat ≠ r.toNat := fun e => h (BitVec.eq_of_toNat_eq e.symm)
    simp [h, this]

@[simp] theorem State.readV_setFlag (s : State) (c : Bool) (r : Reg) :
    (s.setFlag c).readV r = if r = vf then flagByte c else s.readV r := by
  simp [State.setFlag]

@[simp] theorem State.readV_setI (s : State) (w : Word) (r : Reg) : (s.setI w).readV r = s.readV r := rfl
@[simp] theorem State.readV_setPc (s : State) (w : Word) (r : Reg) : (s.setPc w).readV r = s.readV r := rfl
@[simp] theorem State.readV_logEvent (s : State) (e : LogEvent) (r : Reg) :
    (s.logEvent e).readV r = s.readV r := rfl
@[simp] theorem readV_clearDisplay (s : State) (r : Reg) : (clearDisplay s).readV r = s.readV r := rfl
@[simp] theorem readV_preIncrement (s : State) (r : Reg) : (preIncrement s).readV r = s.readV r := rfl
@[simp] theorem readV_takeFetchFault (s : State) (r : Reg) : (takeFetchFault s).readV r = s.readV r := rfl

/-! ### Reads of memory -/

/-- MemRead depends on the configuration and the memory alone. -/
theorem State.memRead_congr (s t : State) (a : Nat) (hc : t.cfg = s.cfg) (hm : t.mem = s.mem) :
    t.memRead a = s.memRead a := by
  simp [State.memRead, hc, hm]

@[simp] theorem State.memRead_setV (s : State) (x : Reg) (b : Byte) (a : Nat) :
    (s.setV x b).memRead a = s.memRead a := rfl
@[simp] theorem State.memRead_setFlag (s : State) (c : Bool) (a : Nat) :
    (s.setFlag c).memRead a = s.memRead a := rfl
@[simp] theorem State.memRead_setI (s : State) (w : Word) (a : Nat) : (s.setI w).memRead a = s.memRead a := rfl
@[simp] theorem State.memRead_setPc (s : State) (w : Word) (a : Nat) : (s.setPc w).memRead a = s.memRead a := rfl
@[simp] theorem State.memRead_logEvent (s : State) (e : LogEvent) (a : Nat) :
    (s.logEvent e).memRead a = s.memRead a := rfl
@[simp] theorem memRead_clearDisplay (s : State) (a : Nat) : (clearDisplay s).memRead a = s.memRead a := rfl
@[simp] theorem memRead_preIncrement (s : State) (a : Nat) : (preIncrement s).memRead a = s.memRead a := rfl
@[simp] theorem memRead_takeFetchFault (s : State) (a : Nat) : (takeFetchFault s).memRead a = s.memRead a := rfl

/-- A conditional skip writes pc alone. -/
theorem State.skipIf_eq (s : State) (c : Bool) : s.skipIf c = s.setPc (if c then s.pc + 2 else s.pc) := by
  cases c <;> rfl

end Sys2Proof.Machine
end

