-- ==== Sys2Proof/Laws/Block.lean ====
section
/-! SUPPORT. Everything the three memory loops can do: the store loop of FX55, the load loop of FX65 and the
digit stores of FX33 (45_fx.md rule R116 to rule R118). -/

namespace Sys2Proof.Machine

/-! ### The store loop of FX55 -/

/-- The store loop writes memory and the log alone, and keeps memory canonical. -/
theorem storeRegs_shape (base : Nat) (js : List Nat) (s : State) :
    ∃ m l, (storeRegs base js s).1 = { s with mem := m, log := s.log ++ l } ∧
      (Memory.wf s.cfg s.mem = true → Memory.wf s.cfg m = true) ∧
      ((storeRegs base js s).2 = true → l = []) := by
  induction js generalizing s with
  | nil => exact ⟨s.mem, [], by simp [storeRegs], id, fun _ => rfl⟩
  | cons j js ih =>
    unfold storeRegs
    split
    · exact ⟨s.mem, _, rfl, id, by simp⟩
    · rename_i s' h
      obtain ⟨ha, rfl⟩ := State.memWrite_cases h
      obtain ⟨m, l, h1, h2, h3⟩ := ih { s with mem := Memory.put s.cfg (base + j) _ s.mem }
      exact ⟨m, l, h1, fun hw => h2 (Memory.wf_put _ _ _ _ ha hw), h3⟩

/-- The store loop over addresses that all exist stores every register and logs nothing. -/
theorem storeRegs_complete (base : Nat) (js : List Nat) (s : State) (h : ∀ j ∈ js, base + j < memSize) :
    (storeRegs base js s).2 = true := by
  induction js generalizing s with
  | nil => rfl
  | cons j js ih =>
    unfold storeRegs
    split
    · rename_i hn
      have := State.memWrite_eq_none.1 hn
      have := h j List.mem_cons_self
      omega
    · exact ih _ fun j hj => h j (List.mem_cons_of_mem _ hj)

/-- The store loop on a list that splits: the second part runs where the first is complete. -/
theorem storeRegs_append (base : Nat) (js ks : List Nat) (s : State) :
    storeRegs base (js ++ ks) s =
      if (storeRegs base js s).2 then storeRegs base ks (storeRegs base js s).1 else storeRegs base js s := by
  induction js generalizing s with
  | nil => simp [storeRegs]
  | cons j js ih =>
    have hx : s.memWrite (base + j) (s.readV (BitVec.ofNat 4 j)) = none ∨
        ∃ t, s.memWrite (base + j) (s.readV (BitVec.ofNat 4 j)) = some t := by
      cases s.memWrite (base + j) (s.readV (BitVec.ofNat 4 j)) <;> simp
    rcases hx with hx | ⟨t, hx⟩
    · simp [storeRegs, hx]
    · simp only [List.cons_append, storeRegs, hx, ih]

/-- A byte of memory after the store loop over existing addresses with distinct offsets below 16. -/
theorem storeRegs_memRead (base : Nat) (js : List Nat) (s : State) (hd : js.Nodup)
    (h : ∀ j ∈ js, base + j < memSize) (a : Nat) :
    (storeRegs base js s).1.memRead a =
      if base ≤ a ∧ a - base ∈ js then some (s.readV (BitVec.ofNat 4 (a - base))) else s.memRead a := by
  induction js generalizing s with
  | nil => simp [storeRegs]
  | cons j js ih =>
    rw [List.nodup_cons] at hd
    unfold storeRegs
    split
    · rename_i hn
      have := State.memWrite_eq_none.1 hn
      have := h j List.mem_cons_self
      omega
    · rename_i s' hs
      have hv : ∀ r, s'.readV r = s.readV r := by
        obtain ⟨-, rfl⟩ := State.memWrite_cases hs
        exact fun _ => rfl
      rw [ih s' hd.2 fun k hk => h k (List.mem_cons_of_mem _ hk), State.memRead_of_memWrite hs a, hv]
      by_cases hb : base ≤ a ∧ a - base ∈ js
      · simp [hb]
      · by_cases he : a = base + j
        · subst he
          simp_all
        · have hj : ¬(base ≤ a ∧ a - base = j) := by omega
          simp only [if_neg hb, if_neg he, List.mem_cons]
          rw [if_neg]
          rintro ⟨h1, h2 | h2⟩
          · exact hj ⟨h1, h2⟩
          · exact hb ⟨h1, h2⟩

/-! ### The load loop of FX65 -/

/-- The load loop writes the V registers and the log alone. -/
theorem loadRegs_shape (base : Nat) (js : List Nat) (s : State) :
    ∃ v l, (loadRegs base js s).1 = { s with v := v, log := s.log ++ l } ∧
      ((loadRegs base js s).2 = true → l = []) := by
  induction js generalizing s with
  | nil => exact ⟨s.v, [], by simp [loadRegs], fun _ => rfl⟩
  | cons j js ih =>
    unfold loadRegs
    split
    · exact ⟨s.v, _, rfl, by simp⟩
    · obtain ⟨v, l, h1, h2⟩ := ih (s.setV (BitVec.ofNat 4 j) ‹_›)
      exact ⟨v, l, h1, h2⟩

/-- The load loop over addresses that all exist loads every register and logs nothing. -/
theorem loadRegs_complete (base : Nat) (js : List Nat) (s : State) (h : ∀ j ∈ js, base + j < memSize) :
    (loadRegs base js s).2 = true := by
  induction js generalizing s with
  | nil => rfl
  | cons j js ih =>
    unfold loadRegs
    split
    · rename_i hn
      have := h j List.mem_cons_self
      simp [State.memRead, this] at hn
    · exact ih _ fun j hj => h j (List.mem_cons_of_mem _ hj)

/-- The load loop on a list that splits: the second part runs where the first is complete. -/
theorem loadRegs_append (base : Nat) (js ks : List Nat) (s : State) :
    loadRegs base (js ++ ks) s =
      if (loadRegs base js s).2 then loadRegs base ks (loadRegs base js s).1 else loadRegs base js s := by
  induction js generalizing s with
  | nil => simp [loadRegs]
  | cons j js ih =>
    have hx : s.memRead (base + j) = none ∨ ∃ b, s.memRead (base + j) = some b := by
      cases s.memRead (base + j) <;> simp
    rcases hx with hx | ⟨b, hx⟩
    · simp [loadRegs, hx]
    · simp only [List.cons_append, loadRegs, hx, ih]

/-- A V register after the load loop over existing addresses with distinct offsets below 16. -/
theorem loadRegs_readV (base : Nat) (js : List Nat) (s : State) (hd : js.Nodup)
    (h : ∀ j ∈ js, base + j < memSize) (h16 : ∀ j ∈ js, j < 16) (r : Reg) :
    some ((loadRegs base js s).1.readV r) =
      if r.toNat ∈ js then s.memRead (base + r.toNat) else some (s.readV r) := by
  induction js generalizing s with
  | nil => simp [loadRegs]
  | cons j js ih =>
    rw [List.nodup_cons] at hd
    have hj := h j List.mem_cons_self
    have hj16 := h16 j List.mem_cons_self
    unfold loadRegs
    split
    · rename_i hn
      simp [State.memRead, hj] at hn
    · rename_i b hb
      rw [ih _ hd.2 (fun k hk => h k (List.mem_cons_of_mem _ hk)) fun k hk => h16 k (List.mem_cons_of_mem _ hk)]
      by_cases hr : r.toNat ∈ js
      · simp [hr]
      · by_cases he : r.toNat = j
        · have : r = BitVec.ofNat 4 j := by
            apply BitVec.eq_of_toNat_eq
            simp [he]; omega
          simp [he, ← this, hb]
        · have : r ≠ BitVec.ofNat 4 j := by
            rintro rfl
            simp at he; omega
          simp [hr, he, this]

/-! ### The digit stores of FX33 -/

/-- The digit stores write memory and the log alone, and keep memory canonical. -/
theorem storeBytes_shape (a : Nat) (bs : List Byte) (s : State) :
    ∃ m l, storeBytes a bs s = { s with mem := m, log := s.log ++ l } ∧
      (Memory.wf s.cfg s.mem = true → Memory.wf s.cfg m = true) := by
  induction bs generalizing a s with
  | nil => exact ⟨s.mem, [], by simp [storeBytes], id⟩
  | cons b bs ih =>
    unfold storeBytes
    split
    · obtain ⟨m, l, h1, h2⟩ := ih (a + 1) (s.logEvent (.outOfBounds a))
      exact ⟨m, .outOfBounds a :: l, by rw [h1]; simp [State.logEvent], h2⟩
    · rename_i s' h
      obtain ⟨ha, rfl⟩ := State.memWrite_cases h
      obtain ⟨m, l, h1, h2⟩ := ih (a + 1) { s with mem := Memory.put s.cfg a b s.mem }
      exact ⟨m, l, h1, fun hw => h2 (Memory.wf_put _ _ _ _ ha hw)⟩

end Sys2Proof.Machine
end

