-- ==== Sys2Proof/Laws/Decode.lean ====
section
/-! SUPPORT. The field views of a word and of an encoded word as numbers, one lemma per view and per format
(30_encoding.md rule R59, rule R61). -/

namespace Sys2Proof

/-! ### The field views -/

theorem opField_toNat (w : Word) : (opField w).toNat = w.toNat / 4096 := by
  have := w.isLt
  simp only [opField, BitVec.extractLsb'_toNat, Nat.shiftRight_eq_div_pow]
  omega

theorem nnnField_toNat (w : Word) : (nnnField w).toNat = w.toNat % 4096 := by
  simp only [nnnField, BitVec.extractLsb'_toNat, Nat.shiftRight_eq_div_pow]
  norm_num

theorem xField_toNat (w : Word) : (xField w).toNat = w.toNat / 256 % 16 := by
  simp only [xField, BitVec.extractLsb'_toNat, Nat.shiftRight_eq_div_pow]

theorem yField_toNat (w : Word) : (yField w).toNat = w.toNat / 16 % 16 := by
  simp only [yField, BitVec.extractLsb'_toNat, Nat.shiftRight_eq_div_pow]

theorem nnField_toNat (w : Word) : (nnField w).toNat = w.toNat % 256 := by
  simp only [nnField, BitVec.extractLsb'_toNat, Nat.shiftRight_eq_div_pow]
  norm_num

theorem nField_toNat (w : Word) : (nField w).toNat = w.toNat % 16 := by
  simp only [nField, BitVec.extractLsb'_toNat, Nat.shiftRight_eq_div_pow]
  norm_num

/-- The word of two bytes is high * 256 + low (20_memory.md rule R44). -/
theorem wordOfBytes_toNat (hi lo : Byte) : (wordOfBytes hi lo).toNat = hi.toNat * 256 + lo.toNat := by
  have := lo.isLt
  rw [wordOfBytes, BitVec.toNat_append, ← Nat.shiftLeft_add_eq_or_of_lt lo.isLt, Nat.shiftLeft_eq]

/-- The two bytes of a word, put together, are the word. -/
@[simp] theorem wordOfBytes_high_low (w : Word) : wordOfBytes (highByte w) (lowByte w) = w := by
  apply BitVec.eq_of_toNat_eq
  have := w.isLt
  rw [wordOfBytes_toNat]
  simp only [highByte, lowByte, BitVec.extractLsb'_toNat, Nat.shiftRight_eq_div_pow]
  omega

/-! ### The formats -/

theorem formatFA_toNat (op : BitVec 4) (nnn : Addr12) :
    (formatFA op nnn).toNat = op.toNat * 4096 + nnn.toNat := by
  rw [formatFA, BitVec.toNat_append, ← Nat.shiftLeft_add_eq_or_of_lt nnn.isLt, Nat.shiftLeft_eq]

theorem formatFI_toNat (op : BitVec 4) (x : Reg) (nn : Byte) :
    (formatFI op x nn).toNat = op.toNat * 4096 + x.toNat * 256 + nn.toNat := by
  rw [formatFI, BitVec.toNat_append, ← Nat.shiftLeft_add_eq_or_of_lt nn.isLt, Nat.shiftLeft_eq,
    BitVec.toNat_append, ← Nat.shiftLeft_add_eq_or_of_lt x.isLt, Nat.shiftLeft_eq]
  omega

theorem formatFR_toNat (op : BitVec 4) (x y : Reg) (n : BitVec 4) :
    (formatFR op x y n).toNat = op.toNat * 4096 + x.toNat * 256 + y.toNat * 16 + n.toNat := by
  rw [formatFR, BitVec.toNat_append, ← Nat.shiftLeft_add_eq_or_of_lt n.isLt, Nat.shiftLeft_eq,
    BitVec.toNat_append, ← Nat.shiftLeft_add_eq_or_of_lt y.isLt, Nat.shiftLeft_eq,
    BitVec.toNat_append, ← Nat.shiftLeft_add_eq_or_of_lt x.isLt, Nat.shiftLeft_eq]
  omega

/-! ### The fields of each format -/

@[simp] theorem opField_formatFA (op : BitVec 4) (nnn : Addr12) : opField (formatFA op nnn) = op := by
  apply BitVec.eq_of_toNat_eq
  have := nnn.isLt
  rw [opField_toNat, formatFA_toNat]
  omega

@[simp] theorem nnnField_formatFA (op : BitVec 4) (nnn : Addr12) : nnnField (formatFA op nnn) = nnn := by
  apply BitVec.eq_of_toNat_eq
  have := nnn.isLt
  rw [nnnField_toNat, formatFA_toNat]
  omega

@[simp] theorem opField_formatFI (op : BitVec 4) (x : Reg) (nn : Byte) : opField (formatFI op x nn) = op := by
  apply BitVec.eq_of_toNat_eq
  have := nn.isLt
  have := x.isLt
  rw [opField_toNat, formatFI_toNat]
  omega

@[simp] theorem xField_formatFI (op : BitVec 4) (x : Reg) (nn : Byte) : xField (formatFI op x nn) = x := by
  apply BitVec.eq_of_toNat_eq
  have := nn.isLt
  have := x.isLt
  rw [xField_toNat, formatFI_toNat]
  omega

@[simp] theorem nnField_formatFI (op : BitVec 4) (x : Reg) (nn : Byte) : nnField (formatFI op x nn) = nn := by
  apply BitVec.eq_of_toNat_eq
  have := nn.isLt
  rw [nnField_toNat, formatFI_toNat]
  omega

@[simp] theorem opField_formatFR (op : BitVec 4) (x y : Reg) (n : BitVec 4) :
    opField (formatFR op x y n) = op := by
  apply BitVec.eq_of_toNat_eq
  have := n.isLt
  have := x.isLt
  have := y.isLt
  rw [opField_toNat, formatFR_toNat]
  omega

@[simp] theorem xField_formatFR (op : BitVec 4) (x y : Reg) (n : BitVec 4) :
    xField (formatFR op x y n) = x := by
  apply BitVec.eq_of_toNat_eq
  have := n.isLt
  have := x.isLt
  have := y.isLt
  rw [xField_toNat, formatFR_toNat]
  omega

@[simp] theorem yField_formatFR (op : BitVec 4) (x y : Reg) (n : BitVec 4) :
    yField (formatFR op x y n) = y := by
  apply BitVec.eq_of_toNat_eq
  have := n.isLt
  have := y.isLt
  rw [yField_toNat, formatFR_toNat]
  omega

@[simp] theorem nField_formatFR (op : BitVec 4) (x y : Reg) (n : BitVec 4) :
    nField (formatFR op x y n) = n := by
  apply BitVec.eq_of_toNat_eq
  have := n.isLt
  rw [nField_toNat, formatFR_toNat]
  omega

end Sys2Proof
end

