-- ==== Sys2Proof/Laws/Display.lean ====
section
/-! SUPPORT. The display engine (43_display.md): what a toggle, a list of toggles and a sprite draw do. -/

namespace Sys2Proof.Machine

/-- A cell after one cell is replaced: coordinates wrap on both sides. -/
theorem pixelAt_pixelSet (p : Pixels) (x y x' y' : Nat) (b : Bool) :
    pixelAt (pixelSet p x y b) x' y' =
      if x' % 64 = x % 64 ∧ y' % 32 = y % 32 then b else pixelAt p x' y' := by
  unfold pixelAt pixelSet
  rw [Vector.getElem_set]
  by_cases hy : y % 32 = y' % 32
  · rw [if_pos hy, Vector.getElem_set]
    by_cases hx : x % 64 = x' % 64
    · simp [hx, hy]
    · have : ¬(x' % 64 = x % 64) := fun e => hx e.symm
      simp [hx, this, hy]
  · have : ¬(y' % 32 = y % 32) := fun e => hy e.symm
    simp [hy, this]

/-- Two grids that agree in every cell are equal. -/
theorem pixels_ext {p q : Pixels} (h : ∀ x y, pixelAt p x y = pixelAt q x y) : p = q := by
  ext y hy x hx
  have := h x y
  simpa [pixelAt, Nat.mod_eq_of_lt hx, Nat.mod_eq_of_lt hy] using this

/-- The cells of a list that a pixel lies under, counted with repeats. -/
def coverCount (ps : List (Nat × Nat)) (x y : Nat) : Nat :=
  ps.countP (fun p => p.1 % 64 == x % 64 && p.2 % 32 == y % 32)

/-- Toggles write the pixels and the dirty flag alone; dirty is set as soon as there is one toggle. -/
theorem toggleCells_shape (ps : List (Nat × Nat)) (s : State) (hit : Bool) :
    ∃ p, (toggleCells ps s hit).1 = { s with pix := p, dirty := s.dirty || !ps.isEmpty } := by
  induction ps generalizing s hit with
  | nil => exact ⟨s.pix, by simp [toggleCells]⟩
  | cons q ps ih =>
    unfold toggleCells
    obtain ⟨p, hp⟩ := ih (togglePixel q.1 q.2 s).1 (hit || (togglePixel q.1 q.2 s).2)
    exact ⟨p, by rw [hp]; simp [togglePixel]⟩

/-- A pixel after a list of toggles is flipped once for each cell of the list over it. -/
theorem toggleCells_getPixel (ps : List (Nat × Nat)) (s : State) (hit : Bool) (x y : Nat) :
    (toggleCells ps s hit).1.getPixel x y = (s.getPixel x y ^^ decide (coverCount ps x y % 2 = 1)) := by
  induction ps generalizing s hit with
  | nil => simp [toggleCells, coverCount]
  | cons q ps ih =>
    unfold toggleCells
    rw [ih]
    have hg : (togglePixel q.1 q.2 s).1.getPixel x y =
        if x % 64 = q.1 % 64 ∧ y % 32 = q.2 % 32 then !s.getPixel q.1 q.2 else s.getPixel x y :=
      pixelAt_pixelSet _ _ _ _ _ _
    rw [hg]
    by_cases hc : x % 64 = q.1 % 64 ∧ y % 32 = q.2 % 32
    · have hs : s.getPixel q.1 q.2 = s.getPixel x y := by simp [State.getPixel, pixelAt, hc]
      have hcount : coverCount (q :: ps) x y = coverCount ps x y + 1 := by simp [coverCount, hc]
      rw [if_pos hc, hs, hcount]
      rcases Nat.mod_two_eq_zero_or_one (coverCount ps x y) with h | h
      · have : (coverCount ps x y + 1) % 2 = 1 := by omega
        simp [h, this]
      · have : (coverCount ps x y + 1) % 2 = 0 := by omega
        simp [h, this]
    · have hcount : coverCount (q :: ps) x y = coverCount ps x y := by
        have : ¬(q.1 % 64 = x % 64 ∧ q.2 % 32 = y % 32) := fun e => hc ⟨e.1.symm, e.2.symm⟩
        simp only [coverCount, List.countP_cons]
        simp [this]
      rw [if_neg hc, hcount]

/-- The collision answer of toggles over cells no two of which wrap to one pixel: some cell was lit before. -/
theorem toggleCells_hit (ps : List (Nat × Nat)) (s : State) (hit : Bool)
    (hd : ps.Pairwise (fun p q => ¬(p.1 % 64 = q.1 % 64 ∧ p.2 % 32 = q.2 % 32))) :
    (toggleCells ps s hit).2 = (hit || ps.any (fun p => s.getPixel p.1 p.2)) := by
  induction ps generalizing s hit with
  | nil => simp [toggleCells]
  | cons q ps ih =>
    rw [List.pairwise_cons] at hd
    unfold toggleCells
    rw [ih _ _ hd.2]
    have : ∀ p ∈ ps, (togglePixel q.1 q.2 s).1.getPixel p.1 p.2 = s.getPixel p.1 p.2 := fun p hp => by
      have hg : (togglePixel q.1 q.2 s).1.getPixel p.1 p.2 =
          if p.1 % 64 = q.1 % 64 ∧ p.2 % 32 = q.2 % 32 then !s.getPixel q.1 q.2 else s.getPixel p.1 p.2 :=
        pixelAt_pixelSet _ _ _ _ _ _
      rw [hg, if_neg fun e => hd.1 p hp ⟨e.1.symm, e.2.symm⟩]
    have hany : ps.any (fun p => (togglePixel q.1 q.2 s).1.getPixel p.1 p.2) =
        ps.any (fun p => s.getPixel p.1 p.2) := by
      rw [Bool.eq_iff_iff, List.any_eq_true, List.any_eq_true]
      exact ⟨fun ⟨p, hp, h⟩ => ⟨p, hp, this p hp ▸ h⟩, fun ⟨p, hp, h⟩ => ⟨p, hp, (this p hp).symm ▸ h⟩⟩
    rw [hany]
    simp [togglePixel, Bool.or_assoc]

/-- The cells of a sprite: the 1 bits of its rows at their columns. -/
theorem mem_spriteCells {ox y : Nat} {bs : List Byte} {p : Nat × Nat} :
    p ∈ spriteCells ox y bs ↔
      ∃ r c, ∃ h : r < bs.length, c < 8 ∧ (bs[r]'h).getLsbD (7 - c) = true ∧ p = (ox + c, y + r) := by
  induction bs generalizing y with
  | nil => simp [spriteCells]
  | cons b bs ih =>
    simp only [spriteCells, List.mem_append, List.mem_map, rowColumns, List.mem_filter, List.mem_range, ih]
    constructor
    · rintro (⟨c, ⟨hc, hb⟩, rfl⟩ | ⟨r, c, h, hc, hb, rfl⟩)
      · exact ⟨0, c, by simp, hc, hb, rfl⟩
      · exact ⟨r + 1, c, by simpa using h, hc, hb, by simp; omega⟩
    · rintro ⟨r, c, h, hc, hb, rfl⟩
      cases r with
      | zero => exact .inl ⟨c, ⟨hc, hb⟩, rfl⟩
      | succ r => exact .inr ⟨r, c, by simpa using h, hc, hb, by simp; omega⟩

/-- No two cells of a sprite of at most 32 rows wrap to one pixel (43_display.md rule R100). -/
theorem spriteCells_distinct (ox y : Nat) (bs : List Byte) (h : bs.length ≤ 32) :
    (spriteCells ox y bs).Pairwise (fun p q => ¬(p.1 % 64 = q.1 % 64 ∧ p.2 % 32 = q.2 % 32)) := by
  induction bs generalizing y with
  | nil => simp [spriteCells]
  | cons b bs ih =>
    simp only [List.length_cons] at h
    rw [spriteCells, List.pairwise_append]
    refine ⟨?_, ih (y + 1) (by omega), ?_⟩
    · rw [List.pairwise_map]
      have hr : (List.range 8).Pairwise (· < ·) := List.pairwise_lt_range
      refine ((hr.filter _).imp_of_mem ?_)
      intro a c ha hc hlt
      simp only [List.mem_filter, List.mem_range] at ha hc
      simp only
      omega
    · intro p hp q hq
      simp only [List.mem_map, rowColumns, List.mem_filter, List.mem_range] at hp
      obtain ⟨c, ⟨hc, -⟩, rfl⟩ := hp
      obtain ⟨r, d, hr, hd, -, rfl⟩ := mem_spriteCells.1 hq
      simp only
      omega

/-- A draw writes the pixels and the dirty flag alone. -/
theorem drawSprite_shape (ox oy : Nat) (bs : List Byte) (s : State) :
    ∃ p d, (drawSprite ox oy bs s).1 = { s with pix := p, dirty := d } := by
  obtain ⟨p, hp⟩ := toggleCells_shape (spriteCells ox oy bs) s false
  exact ⟨p, _, hp⟩

/-- The log of a clamp: the rest of the state is as it was. -/
theorem logClamp_shape (s : State) (n : Nat) : ∃ l, logClamp s n = { s with log := s.log ++ l } := by
  unfold logClamp
  split
  · exact ⟨[], by simp⟩
  · exact ⟨_, rfl⟩

/-- Below the clamped count every sprite read succeeds, so there is one byte a row. -/
theorem spriteBytes_eq (s : State) (n r : Nat) (h : r ≤ clampRows s.i n) :
    spriteBytes s r = (List.range r).map (fun k => Memory.byteAt s.cfg s.mem (s.i.toNat + k)) := by
  have hb : ∀ k, k < r → s.i.toNat + k < memSize := by
    intro k hk
    unfold clampRows at h
    split at h
    · omega
    · split at h <;> omega
  unfold spriteBytes
  rw [← List.filterMap_eq_map]
  apply List.filterMap_congr
  intro k hk
  simp [State.memRead, hb k (List.mem_range.1 hk)]

end Sys2Proof.Machine
end

