-- ==== Sys2Proof/Laws/Keypad.lean ====
section
/-! SUPPORT. Everything the keypad operations can do (44_keypad.md rule R104 to rule R107). -/

namespace Sys2Proof.Machine

/-- A key write that succeeds names a key and writes that key alone. -/
theorem State.setKey_cases {s t : State} {k : Nat} {b : Bool} (h : s.setKey k b = some t) :
    ∃ hk : k < 16, t = { s with key := s.key.set k b hk } := by
  unfold State.setKey at h
  split at h
  · exact ⟨‹_›, (Option.some.inj h).symm⟩
  · exact absurd h (by simp)

/-- isDown fails exactly for the identities 16 and above. -/
theorem State.isDown_eq_none {s : State} {k : Nat} : s.isDown k = none ↔ 16 ≤ k := by
  unfold State.isDown
  split <;> simp <;> omega

/-- A key that firstPressed answers is one of the 16. -/
theorem State.firstPressed_lt {s : State} {k : Nat} (h : s.firstPressed = some k) : k < 16 := by
  have := List.mem_of_find?_eq_some h
  simpa using this

/-- The keypad alone decides firstPressed. -/
theorem State.firstPressed_congr {s t : State} (h : t.key = s.key) : t.firstPressed = s.firstPressed := by
  simp [State.firstPressed, State.isDown, h]

end Sys2Proof.Machine
end

