-- ==== Sys2Proof/Laws/PerInstr.lean ====
section
/-! SUPPORT. The family TableBits: every instruction's word carries the fixed bits of its row in
spec/opcode_table.json (the row's match under the row's mask). -/

namespace Sys2Proof.Laws.TableBits

/-- The mask of the instruction's row in spec/opcode_table.json: 1 where the row fixes the bit. -/
def mask : Instr → Word
  | .cls => 0xFFFF
  | .ret => 0xFFFF
  | .jp _ => 0xF000
  | .call _ => 0xF000
  | .seImm _ _ => 0xF000
  | .sneImm _ _ => 0xF000
  | .seReg _ _ => 0xF00F
  | .ldImm _ _ => 0xF000
  | .addImm _ _ => 0xF000
  | .ldReg _ _ => 0xF00F
  | .orReg _ _ => 0xF00F
  | .andReg _ _ => 0xF00F
  | .xorReg _ _ => 0xF00F
  | .addReg _ _ => 0xF00F
  | .subReg _ _ => 0xF00F
  | .shr _ _ => 0xF00F
  | .subn _ _ => 0xF00F
  | .shl _ _ => 0xF00F
  | .sneReg _ _ => 0xF00F
  | .ldI _ => 0xF000
  | .jpV0 _ => 0xF000
  | .rnd _ _ => 0xF000
  | .drw _ _ _ => 0xF000
  | .skp _ => 0xF0FF
  | .sknp _ => 0xF0FF
  | .ldVxDt _ => 0xF0FF
  | .ldVxK _ => 0xF0FF
  | .ldDtVx _ => 0xF0FF
  | .ldStVx _ => 0xF0FF
  | .addIVx _ => 0xF0FF
  | .ldFVx _ => 0xF0FF
  | .ldBVx _ => 0xF0FF
  | .storeVx _ => 0xF0FF
  | .loadVx _ => 0xF0FF

/-- The value of the fixed bits of the instruction's row in spec/opcode_table.json. -/
def fixedBits : Instr → Word
  | .cls => 0x00E0
  | .ret => 0x00EE
  | .jp _ => 0x1000
  | .call _ => 0x2000
  | .seImm _ _ => 0x3000
  | .sneImm _ _ => 0x4000
  | .seReg _ _ => 0x5000
  | .ldImm _ _ => 0x6000
  | .addImm _ _ => 0x7000
  | .ldReg _ _ => 0x8000
  | .orReg _ _ => 0x8001
  | .andReg _ _ => 0x8002
  | .xorReg _ _ => 0x8003
  | .addReg _ _ => 0x8004
  | .subReg _ _ => 0x8005
  | .shr _ _ => 0x8006
  | .subn _ _ => 0x8007
  | .shl _ _ => 0x800E
  | .sneReg _ _ => 0x9000
  | .ldI _ => 0xA000
  | .jpV0 _ => 0xB000
  | .rnd _ _ => 0xC000
  | .drw _ _ _ => 0xD000
  | .skp _ => 0xE09E
  | .sknp _ => 0xE0A1
  | .ldVxDt _ => 0xF007
  | .ldVxK _ => 0xF00A
  | .ldDtVx _ => 0xF015
  | .ldStVx _ => 0xF018
  | .addIVx _ => 0xF01E
  | .ldFVx _ => 0xF029
  | .ldBVx _ => 0xF033
  | .storeVx _ => 0xF055
  | .loadVx _ => 0xF065

/-- The word of the instruction, under its row's mask, is its row's match. -/
def Statement (i : Instr) : Prop := encode i &&& mask i = fixedBits i

/-! ### The formats under the masks of the table -/

theorem nibble_and_ones (a : BitVec 4) : a &&& 0xF#4 = a := BitVec.and_allOnes

theorem byte_and_ones (a : Byte) : a &&& 0xFF#8 = a := BitVec.and_allOnes

theorem formatFA_and (op : BitVec 4) (nnn : Addr12) : formatFA op nnn &&& 0xF000 = formatFA op 0 := by
  have h : (0xF000 : Word) = 0xF#4 ++ 0x000#12 := by decide
  rw [h, formatFA, BitVec.and_append, formatFA]
  simp [nibble_and_ones]

theorem formatFI_and (op : BitVec 4) (x : Reg) (nn : Byte) : formatFI op x nn &&& 0xF000 = formatFI op 0 0 := by
  have h : (0xF000 : Word) = 0xF#4 ++ 0x0#4 ++ 0x00#8 := by decide
  rw [h, formatFI, BitVec.and_append, BitVec.and_append, formatFI]
  simp [nibble_and_ones]

theorem formatFX_and (op : BitVec 4) (x : Reg) (nn : Byte) : formatFI op x nn &&& 0xF0FF = formatFI op 0 nn := by
  have h : (0xF0FF : Word) = 0xF#4 ++ 0x0#4 ++ 0xFF#8 := by decide
  rw [h, formatFI, BitVec.and_append, BitVec.and_append, formatFI]
  simp [nibble_and_ones, byte_and_ones]

theorem formatFR_and (op : BitVec 4) (x y : Reg) (n : BitVec 4) :
    formatFR op x y n &&& 0xF00F = formatFR op 0 0 n := by
  have h : (0xF00F : Word) = 0xF#4 ++ 0x0#4 ++ 0x0#4 ++ 0xF#4 := by decide
  rw [h, formatFR, BitVec.and_append, BitVec.and_append, BitVec.and_append, formatFR]
  simp [nibble_and_ones]

theorem formatFD_and (op : BitVec 4) (x y : Reg) (n : BitVec 4) :
    formatFR op x y n &&& 0xF000 = formatFR op 0 0 0 := by
  have h : (0xF000 : Word) = 0xF#4 ++ 0x0#4 ++ 0x0#4 ++ 0x0#4 := by decide
  rw [h, formatFR, BitVec.and_append, BitVec.and_append, BitVec.and_append, formatFR]
  simp [nibble_and_ones]

/-! ### One lemma per instruction -/

theorem cls : Statement (.cls) := by unfold Statement; decide
theorem ret : Statement (.ret) := by unfold Statement; decide
theorem jp (nnn : Addr12) : Statement (.jp nnn) := (formatFA_and _ _).trans rfl
theorem call (nnn : Addr12) : Statement (.call nnn) := (formatFA_and _ _).trans rfl
theorem seImm (x : Reg) (nn : Byte) : Statement (.seImm x nn) := (formatFI_and _ _ _).trans rfl
theorem sneImm (x : Reg) (nn : Byte) : Statement (.sneImm x nn) := (formatFI_and _ _ _).trans rfl
theorem seReg (x : Reg) (y : Reg) : Statement (.seReg x y) := (formatFR_and _ _ _ _).trans rfl
theorem ldImm (x : Reg) (nn : Byte) : Statement (.ldImm x nn) := (formatFI_and _ _ _).trans rfl
theorem addImm (x : Reg) (nn : Byte) : Statement (.addImm x nn) := (formatFI_and _ _ _).trans rfl
theorem ldReg (x : Reg) (y : Reg) : Statement (.ldReg x y) := (formatFR_and _ _ _ _).trans rfl
theorem orReg (x : Reg) (y : Reg) : Statement (.orReg x y) := (formatFR_and _ _ _ _).trans rfl
theorem andReg (x : Reg) (y : Reg) : Statement (.andReg x y) := (formatFR_and _ _ _ _).trans rfl
theorem xorReg (x : Reg) (y : Reg) : Statement (.xorReg x y) := (formatFR_and _ _ _ _).trans rfl
theorem addReg (x : Reg) (y : Reg) : Statement (.addReg x y) := (formatFR_and _ _ _ _).trans rfl
theorem subReg (x : Reg) (y : Reg) : Statement (.subReg x y) := (formatFR_and _ _ _ _).trans rfl
theorem shr (x : Reg) (y : Reg) : Statement (.shr x y) := (formatFR_and _ _ _ _).trans rfl
theorem subn (x : Reg) (y : Reg) : Statement (.subn x y) := (formatFR_and _ _ _ _).trans rfl
theorem shl (x : Reg) (y : Reg) : Statement (.shl x y) := (formatFR_and _ _ _ _).trans rfl
theorem sneReg (x : Reg) (y : Reg) : Statement (.sneReg x y) := (formatFR_and _ _ _ _).trans rfl
theorem ldI (nnn : Addr12) : Statement (.ldI nnn) := (formatFA_and _ _).trans rfl
theorem jpV0 (nnn : Addr12) : Statement (.jpV0 nnn) := (formatFA_and _ _).trans rfl
theorem rnd (x : Reg) (nn : Byte) : Statement (.rnd x nn) := (formatFI_and _ _ _).trans rfl
theorem drw (x : Reg) (y : Reg) (n : Nat) : Statement (.drw x y n) := (formatFD_and _ _ _ _).trans rfl
theorem skp (x : Reg) : Statement (.skp x) := (formatFX_and _ _ _).trans rfl
theorem sknp (x : Reg) : Statement (.sknp x) := (formatFX_and _ _ _).trans rfl
theorem ldVxDt (x : Reg) : Statement (.ldVxDt x) := (formatFX_and _ _ _).trans rfl
theorem ldVxK (x : Reg) : Statement (.ldVxK x) := (formatFX_and _ _ _).trans rfl
theorem ldDtVx (x : Reg) : Statement (.ldDtVx x) := (formatFX_and _ _ _).trans rfl
theorem ldStVx (x : Reg) : Statement (.ldStVx x) := (formatFX_and _ _ _).trans rfl
theorem addIVx (x : Reg) : Statement (.addIVx x) := (formatFX_and _ _ _).trans rfl
theorem ldFVx (x : Reg) : Statement (.ldFVx x) := (formatFX_and _ _ _).trans rfl
theorem ldBVx (x : Reg) : Statement (.ldBVx x) := (formatFX_and _ _ _).trans rfl
theorem storeVx (x : Reg) : Statement (.storeVx x) := (formatFX_and _ _ _).trans rfl
theorem loadVx (x : Reg) : Statement (.loadVx x) := (formatFX_and _ _ _).trans rfl

end Sys2Proof.Laws.TableBits
end

