-- ==== Sys2Proof/Laws/Stack.lean ====
section
/-! SUPPORT. Everything stackPush and stackPop can do (10_state.md rule R24, rule R25). -/

namespace Sys2Proof.Machine

/-- A push that succeeds found room, stores at the depth and raises it by 1. -/
theorem State.stackPush_cases {s t : State} {w : Word} (h : s.stackPush w = some t) :
    ∃ hs : s.sp < 16, t = { s with stack := s.stack.set s.sp w hs, sp := s.sp + 1 } := by
  unfold State.stackPush at h
  split at h
  · exact ⟨‹_›, (Option.some.inj h).symm⟩
  · exact absurd h (by simp)

theorem State.stackPush_eq_none {s : State} {w : Word} : s.stackPush w = none ↔ 16 ≤ s.sp := by
  unfold State.stackPush
  split <;> simp <;> omega

/-- A push with room succeeds. -/
theorem State.stackPush_of_lt (s : State) (w : Word) (h : s.sp < 16) :
    s.stackPush w = some { s with stack := s.stack.set s.sp w h, sp := s.sp + 1 } := by
  simp [State.stackPush, h]

/-- A pop that succeeds found an entry, lowers the depth by 1 and answers the slot there. -/
theorem State.stackPop_cases {s t : State} {w : Word} (h : s.stackPop = some (w, t)) :
    ∃ hs : 0 < s.sp ∧ s.sp ≤ 16, w = s.stack[s.sp - 1]'(by omega) ∧ t = { s with sp := s.sp - 1 } := by
  unfold State.stackPop at h
  split at h
  · rename_i hs
    simp only [Option.some.injEq, Prod.mk.injEq] at h
    exact ⟨hs, h.1.symm, h.2.symm⟩
  · exact absurd h (by simp)

theorem State.stackPop_eq_none {s : State} : s.stackPop = none ↔ s.sp = 0 ∨ 16 < s.sp := by
  unfold State.stackPop
  split <;> simp <;> omega

/-- A pop from a live stack succeeds. -/
theorem State.stackPop_of_pos (s : State) (h : 0 < s.sp ∧ s.sp ≤ 16) :
    s.stackPop = some (s.stack[s.sp - 1]'(by omega), { s with sp := s.sp - 1 }) := by
  simp [State.stackPop, h]

/-- A pop right after a push answers the pushed value and gives back the depth. -/
theorem State.stackPop_push (s : State) (w : Word) (h : s.sp < 16) :
    ({ s with stack := s.stack.set s.sp w h, sp := s.sp + 1 } : State).stackPop =
      some (w, { s with stack := s.stack.set s.sp w h }) := by
  rw [State.stackPop_of_pos _ (by simp; omega)]
  simp

end Sys2Proof.Machine
end

