-- ==== Sys2Proof/Laws/Step.lean ====
section
/-! SUPPORT. What a fetch, a step and a transaction can do. -/

namespace Sys2Proof.Machine

/-! ### The fetch -/

/-- The fetch fails exactly when pc + 1 >= 4096 (30_encoding.md rule R57). -/
theorem fetchWord_eq_none {s : State} : fetchWord s = none ↔ memSize ≤ s.pc.toNat + 1 := by
  unfold fetchWord State.memRead
  by_cases h : s.pc.toNat + 1 < memSize
  · have h' : s.pc.toNat < memSize := by omega
    simp only [if_pos h, if_pos h']
    simp
    omega
  · simp only [if_neg h]
    split <;> simp_all

/-- A fetch that succeeds reads the two bytes at pc, high byte first. -/
theorem fetchWord_cases {s : State} {w : Word} (h : fetchWord s = some w) :
    ∃ hi lo, s.memRead s.pc.toNat = some hi ∧ s.memRead (s.pc.toNat + 1) = some lo ∧ w = wordOfBytes hi lo := by
  unfold fetchWord at h
  split at h
  · rename_i hi lo h1 h2
    exact ⟨hi, lo, h1, h2, (Option.some.inj h).symm⟩
  · exact absurd h (by simp)

/-- A fetch that succeeds found pc at 0x0FFE or below. -/
theorem fetchWord_pc {s : State} {w : Word} (h : fetchWord s = some w) : s.pc.toNat + 1 < memSize := by
  by_contra hn
  rw [fetchWord_eq_none.2 (by omega)] at h
  exact absurd h (by simp)

/-! ### The step -/

/-- Every way a step answers a next state: the fetch fault, the execution of the decoded instruction, or the
logged no-op of an unimplemented word. -/
theorem step_cases {s t : State} (h : step s = .next t) :
    s.fault = none ∧
      ((fetchWord s = none ∧ t = takeFetchFault s) ∨
        (∃ w i, fetchWord s = some w ∧ decode w = .instr i ∧ exec i (preIncrement s) = .next t) ∨
        (∃ w u, fetchWord s = some w ∧ decode w = .unimplemented u ∧
          t = (preIncrement s).logEvent (.unimplemented u))) := by
  unfold step at h
  split at h
  · exact absurd h (by simp)
  · rename_i hf
    refine ⟨hf, ?_⟩
    split at h
    · rename_i hn
      exact .inl ⟨hn, by simpa using h.symm⟩
    · rename_i w hw
      split at h
      · rename_i i hi
        exact .inr (.inl ⟨w, i, hw, hi, h⟩)
      · rename_i u hu
        exact .inr (.inr ⟨w, u, hw, hu, by simpa [execUnimplemented] using h.symm⟩)

/-! ### The host transactions -/

/-- Copied bytes go to memory alone, and keep it canonical. -/
theorem copyBytes_shape (a : Nat) (bs : List Byte) (s : State) :
    ∃ m, copyBytes a bs s = { s with mem := m } ∧
      (Memory.wf s.cfg s.mem = true → Memory.wf s.cfg m = true) := by
  induction bs generalizing a s with
  | nil => exact ⟨s.mem, rfl, id⟩
  | cons b bs ih =>
    unfold copyBytes
    obtain ⟨m, h1, h2⟩ := ih (a + 1) ((s.memWrite a b).getD s)
    cases hw : s.memWrite a b with
    | none =>
      rw [hw] at h1 h2
      exact ⟨m, h1, h2⟩
    | some s' =>
      rw [hw] at h1 h2
      obtain ⟨ha, rfl⟩ := State.memWrite_cases hw
      exact ⟨m, h1, fun hm => h2 (Memory.wf_put _ _ _ _ ha hm)⟩

/-- A byte of memory after bytes are copied to addresses that all exist. -/
theorem copyBytes_memRead (a : Nat) (bs : List Byte) (s : State) (h : a + bs.length ≤ memSize) (b : Nat) :
    (copyBytes a bs s).memRead b =
      if a ≤ b ∧ b < a + bs.length then bs[b - a]? else s.memRead b := by
  induction bs generalizing a s with
  | nil =>
    have : ¬(a ≤ b ∧ b < a + 0) := by omega
    simp only [copyBytes, List.length_nil, if_neg this]
  | cons c bs ih =>
    simp only [List.length_cons] at h ⊢
    unfold copyBytes
    cases hw : s.memWrite a c with
    | none =>
      have := State.memWrite_eq_none.1 hw
      omega
    | some s' =>
      rw [Option.getD_some, ih (a + 1) s' (by omega), State.memRead_of_memWrite hw]
      by_cases hb : b = a
      · subst hb
        have h1 : ¬(b + 1 ≤ b ∧ b < b + 1 + bs.length) := by omega
        have h2 : b ≤ b ∧ b < b + (bs.length + 1) := by omega
        rw [if_neg h1, if_pos h2]
        simp
      · by_cases hr : a + 1 ≤ b ∧ b < a + 1 + bs.length
        · have h2 : a ≤ b ∧ b < a + (bs.length + 1) := by omega
          rw [if_pos hr, if_pos h2]
          obtain ⟨k, hk⟩ : ∃ k, b - a = k + 1 := ⟨b - a - 1, by omega⟩
          have : b - (a + 1) = k := by omega
          rw [hk, this]
          rfl
        · have h2 : ¬(a ≤ b ∧ b < a + (bs.length + 1)) := by omega
          rw [if_neg hr, if_neg h2, if_neg hb]

/-- Everything a tick writes: the accumulator, the two timers and the latch. -/
theorem tick_shape (e : Nat) (s : State) :
    ∃ acc dt st latch, (tick e s).1 = { s with acc := acc, dt := dt, st := st, toneLatch := latch } :=
  ⟨_, _, _, _, rfl⟩

end Sys2Proof.Machine
end

