-- ==== Sys2Proof/Laws/Timer.lean ====
section
/-! SUPPORT. What the timer clock can do (60_exceptions.md rule R131 to rule R134). -/

namespace Sys2Proof.Machine

/-- A countdown saturates at 0. -/
theorem countDown_toNat (k : Nat) (t : Byte) : (countDown k t).toNat = t.toNat - min k t.toNat := by
  have := t.isLt
  rw [countDown, BitVec.toNat_ofNat]
  omega

/-- A timer at 0 stays at 0. -/
@[simp] theorem countDown_zero (k : Nat) : countDown k 0 = 0 := by
  apply BitVec.eq_of_toNat_eq
  rw [countDown_toNat]
  simp

/-- After a tick the latch says whether ST is nonzero. -/
theorem tick_toneLatch (e : Nat) (s : State) : (tick e s).1.toneLatch = ((tick e s).1.st != 0) := rfl

/-- startTone: ST is nonzero after the tick and the latch was clear before it. -/
theorem tick_startTone (e : Nat) (s : State) : (tick e s).2.1 = ((tick e s).1.st != 0 && !s.toneLatch) := rfl

/-- stopTone: ST is zero after the tick and the latch was set before it. -/
theorem tick_stopTone (e : Nat) (s : State) : (tick e s).2.2 = (s.toneLatch && !((tick e s).1.st != 0)) := rfl

/-- A tick never starts a stopped sound timer. -/
theorem tick_st_of_zero {e : Nat} {s : State} (h : s.st = 0) : (tick e s).1.st = 0 := by
  show countDown _ s.st = 0
  rw [h, countDown_zero]

@[simp] theorem afterTicks_nil (s : State) : afterTicks [] s = s := rfl

@[simp] theorem afterTicks_cons (e : Nat) (es : List Nat) (s : State) :
    afterTicks (e :: es) s = afterTicks es (tick e s).1 := rfl

end Sys2Proof.Machine
end

