-- ==== Sys2Proof/Tests/Slice0.lean ====
section
/-! SUPPORT. The model's own tests: the well-formedness smoke test, one word per instruction decoded, one-step
tests taken from the vectors of 95_test_vectors.md, and for every statement with hypotheses a witness that meets
them. -/

namespace Sys2Proof.Tests

open Sys2Proof.Machine

/-! ### Helpers -/

/-- The word `w` at address `a`, with pc there. -/
def at' (a : Nat) (w : Word) (s : State) : State := storeWord { s with pc := BitVec.ofNat 16 a } a w

/-- The reset state with the word `w` at 0x200. -/
def word (w : Word) : State := at' 0x200 w State.reset

/-- Registers set, then everything as it was. -/
def regs (l : List (Reg × Byte)) (s : State) : State := l.foldl (fun s p => s.setV p.1 p.2) s

/-- Bytes stored from `a` on. -/
def poke (a : Nat) (bs : List Byte) (s : State) : State := copyBytes a bs s

/-- The step at `s` answers a next state that satisfies `p`. -/
def after (s : State) (p : State → Bool) : Bool :=
  match step s with
  | .next t => p t
  | .fault _ => false
  | .refused _ => false

/-- The transaction at `s` answers a next state and reply that satisfy `p`. -/
def replied (tr : Transaction) (s : State) (p : State → Reply → Bool) : Bool :=
  match transact tr s with
  | .next (t, r) => p t r
  | .fault _ => false
  | .refused _ => false

/-- V[x] is b. -/
def vIs (x : Reg) (b : Byte) (t : State) : Bool := t.readV x == b

/-- The bytes from `a` on. -/
def bytesAt (t : State) (a n : Nat) : List (Option Byte) := (List.range n).map (fun j => t.memRead (a + j))

/-- Is the outcome a next state? -/
def isNext {α : Type} : Host.Outcome α Fault Refusal → Bool
  | .next _ => true
  | .fault _ => false
  | .refused _ => false

theorem exists_next {α : Type} {o : Host.Outcome α Fault Refusal} (h : isNext o = true) : ∃ t, o = .next t := by
  cases o with
  | next t => exact ⟨t, rfl⟩
  | fault f => exact absurd h (by simp [isNext])
  | refused r => exact absurd h (by simp [isNext])

/-! ### Well-formedness -/

/-- The one check: a row count of 16 is refused, and 0 and 15 are accepted (30_encoding.md rule R60). -/
theorem test_wellFormed_refuses_drw_16 : wellFormed (.drw 0 0 16) = false := by decide
theorem test_wellFormed_accepts_drw_0_15 :
    wellFormed (.drw 0 0 0) = true ∧ wellFormed (.drw 0xF 0xF 15) = true := by decide

/-! ### Decoding: one word per instruction, written out from the patterns of opcode_table.json -/

theorem test_decode_cls : decode 0b0000000011100000 = .instr .cls := by decide
theorem test_decode_ret : decode 0b0000000011101110 = .instr .ret := by decide
theorem test_decode_jp : decode 0b0001101010111100 = .instr (.jp 0xABC) := by decide
theorem test_decode_call : decode 0b0010010001010110 = .instr (.call 0x456) := by decide
theorem test_decode_seImm : decode 0b0011000100100010 = .instr (.seImm 1 0x22) := by decide
theorem test_decode_sneImm : decode 0b0100000100100010 = .instr (.sneImm 1 0x22) := by decide
theorem test_decode_seReg : decode 0b0101000100100000 = .instr (.seReg 1 2) := by decide
theorem test_decode_ldImm : decode 0b0110101000111110 = .instr (.ldImm 0xA 0x3E) := by decide
theorem test_decode_addImm : decode 0b0111000111111111 = .instr (.addImm 1 0xFF) := by decide
theorem test_decode_ldReg : decode 0b1000000100100000 = .instr (.ldReg 1 2) := by decide
theorem test_decode_orReg : decode 0b1000000100100001 = .instr (.orReg 1 2) := by decide
theorem test_decode_andReg : decode 0b1000000100100010 = .instr (.andReg 1 2) := by decide
theorem test_decode_xorReg : decode 0b1000000100100011 = .instr (.xorReg 1 2) := by decide
theorem test_decode_addReg : decode 0b1000000100100100 = .instr (.addReg 1 2) := by decide
theorem test_decode_subReg : decode 0b1000000100100101 = .instr (.subReg 1 2) := by decide
theorem test_decode_shr : decode 0b1000000100100110 = .instr (.shr 1 2) := by decide
theorem test_decode_subn : decode 0b1000000100100111 = .instr (.subn 1 2) := by decide
theorem test_decode_shl : decode 0b1000000100101110 = .instr (.shl 1 2) := by decide
theorem test_decode_sneReg : decode 0b1001000100100000 = .instr (.sneReg 1 2) := by decide
theorem test_decode_ldI : decode 0b1010001100000000 = .instr (.ldI 0x300) := by decide
theorem test_decode_jpV0 : decode 0b1011001100000000 = .instr (.jpV0 0x300) := by decide
theorem test_decode_rnd : decode 0b1100000100001111 = .instr (.rnd 1 0x0F) := by decide
theorem test_decode_drw : decode 0b1101000100100101 = .instr (.drw 1 2 5) := by decide
theorem test_decode_skp : decode 0b1110000110011110 = .instr (.skp 1) := by decide
theorem test_decode_sknp : decode 0b1110000110100001 = .instr (.sknp 1) := by decide
theorem test_decode_ldVxDt : decode 0b1111001100000111 = .instr (.ldVxDt 3) := by decide
theorem test_decode_ldVxK : decode 0b1111001100001010 = .instr (.ldVxK 3) := by decide
theorem test_decode_ldDtVx : decode 0b1111000100010101 = .instr (.ldDtVx 1) := by decide
theorem test_decode_ldStVx : decode 0b1111000100011000 = .instr (.ldStVx 1) := by decide
theorem test_decode_addIVx : decode 0b1111001000011110 = .instr (.addIVx 2) := by decide
theorem test_decode_ldFVx : decode 0b1111010000101001 = .instr (.ldFVx 4) := by decide
theorem test_decode_ldBVx : decode 0b1111000100110011 = .instr (.ldBVx 1) := by decide
theorem test_decode_storeVx : decode 0b1111001101010101 = .instr (.storeVx 3) := by decide
theorem test_decode_loadVx : decode 0b1111001101100101 = .instr (.loadVx 3) := by decide

/-- V4 to V7: each word decodes to UNIMPLEMENTED under its own value. -/
theorem test_decode_unimplemented :
    ([0x0123, 0x0000, 0x00E1, 0x5121, 0x9121, 0x8128, 0x812F, 0xE19F, 0xF0FF] : List Word).all
      (fun w => decide (decode w = .unimplemented w)) = true := by decide

/-- The table's bit 0 is the word's bit 0, and the bytes lie high byte first. -/
theorem test_decodeTableWord :
    decodeTableWord 16 0x00E0 = some .cls ∧ decodeTableWord 16 0x1ABC = some (.jp 0xABC) ∧
      decodeTableWord 16 0x0123 = none ∧ decodeBytes 0x1A 0xBC = .instr (.jp 0xABC) := by decide

/-! ### The cycle -/

/-- V1: the last word that can be fetched. -/
theorem test_fetch_at_ffe : after (at' 0xFFE 0x1200 State.reset) (fun t => t.pc == 0x200) = true := by decide

/-- V2: pc = 0xFFF records the fault, and the next step answers it. -/
theorem test_fetch_fault :
    after { State.reset with pc := 0xFFF }
      (fun t => t == { State.reset with pc := 0xFFF, fault := some (.fetchOutOfBounds 0xFFF) } && !isNext (step t)) =
      true := by decide

/-- V3: an odd pc fetches like an even one. -/
theorem test_fetch_odd_pc : after (at' 0x201 0x612A State.reset) (fun t => vIs 1 0x2A t && t.pc == 0x203) = true := by decide

/-- V4: an unimplemented word is logged, and pc goes on. -/
theorem test_unimplemented_step :
    after (word 0x0123) (fun t => t == { word 0x0123 with pc := 0x202, started := true, log := [.unimplemented 0x0123] }) =
      true := by decide

/-- withFetchWord places the word where the next step fetches it. -/
theorem test_withFetchWord :
    after (State.reset.withFetchWord 16 0x6A3E) (fun t => vIs 0xA 0x3E t && t.pc == 0x202) = true := by decide

/-! ### Flow -/

/-- V8. -/
theorem test_cls_clears :
    after { (togglePixel 3 4 (word 0x00E0)).1 with dirty := false }
      (fun t => !t.getPixel 3 4 && t.dirty && t.pc == 0x202) = true := by decide

/-- V10. -/
theorem test_ret_underflow :
    after (at' 0x300 0x00EE State.reset)
      (fun t => t.pc == 0x302 && t.sp == 0 && t.log == [.stackUnderflow 0x300]) = true := by decide

/-- V11. -/
theorem test_ret_pops :
    after { at' 0x300 0x00EE State.reset with sp := 2, stack := (State.reset.stack.set 0 0x206).set 1 0x40C }
      (fun t => t.pc == 0x40C && t.sp == 1 && t.stack[1] == 0x40C) = true := by decide

/-- V12. -/
theorem test_jp : after (word 0x1ABC) (fun t => t.pc == 0xABC) = true := by decide

/-- V14. -/
theorem test_call_overflow :
    after { word 0x2300 with sp := 16 }
      (fun t => t.pc == 0x202 && t.sp == 16 && t.stack == State.reset.stack && t.log == [.stackOverflow 0x200]) =
      true := by decide

/-- S7, the call: the pre-incremented pc is pushed. -/
theorem test_call_pushes :
    after (at' 0x400 0x2456 State.reset) (fun t => t.pc == 0x456 && t.sp == 1 && t.stack[0] == 0x402) = true := by decide

/-- V16. -/
theorem test_seImm :
    (after (regs [(1, 0x22)] (word 0x3122)) (fun t => t.pc == 0x204) &&
      after (regs [(1, 0x23)] (word 0x3122)) (fun t => t.pc == 0x202)) = true := by decide

/-- V20: a skip at the end of memory. -/
theorem test_seImm_at_ffe : after (at' 0xFFE 0x3000 State.reset) (fun t => t.pc == 0x1002) = true := by decide

/-- V17. -/
theorem test_sneImm :
    (after (regs [(1, 0x22)] (word 0x4122)) (fun t => t.pc == 0x202) &&
      after (regs [(1, 0x23)] (word 0x4122)) (fun t => t.pc == 0x204)) = true := by decide

/-- V18. -/
theorem test_seReg :
    (after (regs [(1, 7), (2, 7)] (word 0x5120)) (fun t => t.pc == 0x204) &&
      after (regs [(1, 7), (2, 8)] (word 0x5120)) (fun t => t.pc == 0x202)) = true := by decide

/-- V19. -/
theorem test_sneReg :
    (after (regs [(1, 7), (2, 8)] (word 0x9120)) (fun t => t.pc == 0x204) &&
      after (regs [(1, 7)] (word 0x9110)) (fun t => t.pc == 0x202)) = true := by decide

/-! ### Arithmetic -/

/-- V22. -/
theorem test_ldImm : after (word 0x6A3E) (vIs 0xA 0x3E) = true := by decide

/-- V24: no carry flag. -/
theorem test_addImm_wraps :
    after (regs [(1, 0xFF), (0xF, 0x55)] (word 0x7102)) (fun t => vIs 1 0x01 t && vIs 0xF 0x55 t) = true := by decide

/-- V25: VF gets the sum. -/
theorem test_addImm_vf : after (regs [(0xF, 0xFF)] (word 0x7F01)) (vIs 0xF 0x00) = true := by decide

/-- V26. -/
theorem test_ldReg :
    after (regs [(2, 0xAB), (0xF, 1)] (word 0x8120)) (fun t => vIs 1 0xAB t && vIs 0xF 1 t) = true := by decide

/-- V27. -/
theorem test_orReg :
    after (regs [(1, 0xF0), (2, 0x0F), (0xF, 1)] (word 0x8121)) (fun t => vIs 1 0xFF t && vIs 0xF 0 t) = true := by decide

/-- V31: VF is cleared last. -/
theorem test_orReg_vf : after (regs [(0xF, 0x0C), (1, 0x30)] (word 0x8F11)) (vIs 0xF 0) = true := by decide

/-- V28. -/
theorem test_andReg :
    after (regs [(1, 0xF0), (2, 0x3C), (0xF, 1)] (word 0x8122)) (fun t => vIs 1 0x30 t && vIs 0xF 0 t) = true := by decide

/-- V29. -/
theorem test_xorReg :
    after (regs [(1, 0xFF), (2, 0x0F), (0xF, 1)] (word 0x8123)) (fun t => vIs 1 0xF0 t && vIs 0xF 0 t) = true := by decide

/-- S6. -/
theorem test_addReg_carry :
    after (regs [(1, 0xF0), (2, 0x30)] (word 0x8124)) (fun t => vIs 1 0x20 t && vIs 0xF 1 t) = true := by decide

/-- V37: the old VF is the operand. -/
theorem test_addReg_y_vf :
    after (regs [(1, 0x01), (0xF, 0xFF)] (word 0x81F4)) (fun t => vIs 1 0 t && vIs 0xF 1 t) = true := by decide

/-- V39. -/
theorem test_subReg_borrow :
    after (regs [(1, 3), (2, 5)] (word 0x8125)) (fun t => vIs 1 0xFE t && vIs 0xF 0 t) = true := by decide

/-- V40. -/
theorem test_subReg_equal :
    after (regs [(1, 0x42), (2, 0x42)] (word 0x8125)) (fun t => vIs 1 0 t && vIs 0xF 1 t) = true := by decide

/-- V42: V2 plays no part. -/
theorem test_shr :
    after (regs [(1, 0x04), (2, 0xFF)] (word 0x8126)) (fun t => vIs 1 0x02 t && vIs 0xF 0 t) = true := by decide

/-- V43. -/
theorem test_shr_vf : after (regs [(0xF, 0x03)] (word 0x8F06)) (vIs 0xF 0) = true := by decide

/-- V44. -/
theorem test_subn :
    after (regs [(1, 3), (2, 5)] (word 0x8127)) (fun t => vIs 1 2 t && vIs 0xF 1 t) = true := by decide

/-- V45. -/
theorem test_subn_borrow :
    after (regs [(1, 5), (2, 3)] (word 0x8127)) (fun t => vIs 1 0xFE t && vIs 0xF 0 t) = true := by decide

/-- V46. -/
theorem test_shl :
    after (regs [(1, 0x81)] (word 0x812E)) (fun t => vIs 1 0x02 t && vIs 0xF 1 t) = true := by decide

/-- V47. -/
theorem test_shl_vf : after (regs [(0xF, 0x80)] (word 0x8F0E)) (vIs 0xF 0x02) = true := by decide

/-! ### Index, jump with offset, random -/

/-- V48. -/
theorem test_ldI : after (word 0xAFFF) (fun t => t.i == 0x0FFF) = true := by decide

/-- V50: no mask. -/
theorem test_jpV0_no_mask : after (regs [(0, 0xFF)] (word 0xBFFF)) (fun t => t.pc == 0x10FE) = true := by decide

/-- V51: only V0 is added. -/
theorem test_jpV0_only_v0 : after (regs [(1, 0x44)] (word 0xB300)) (fun t => t.pc == 0x300) = true := by decide

/-- V52, the draw 0xB7. -/
theorem test_rnd_masks : (randomMask 1 0x0F 0xB7 State.reset).readV 1 = 0x07 := by decide

/-- V52, nn = 0 and nn = 0xFF. -/
theorem test_rnd_ends (d : Byte) :
    (randomMask 1 0x00 d State.reset).readV 1 = 0 ∧ (randomMask 1 0xFF d State.reset).readV 1 = d := by
  revert d
  decide +kernel

/-! ### Display -/

/-- Which of the listed pixels are lit. -/
def lit (t : State) (cells : List (Nat × Nat)) : List Bool := cells.map (fun p => t.getPixel p.1 p.2)

/-- V54: a row that crosses the right edge. -/
theorem test_drw_wraps_right :
    after { regs [(1, 60)] (poke 0x300 [0xFF] (word 0xD121)) with i := 0x300, dirty := false }
      (fun t => lit t [(59, 0), (60, 0), (63, 0), (0, 0), (3, 0), (4, 0), (60, 1)] ==
        [false, true, true, true, true, false, false] && t.dirty && vIs 0xF 0 t) = true := by decide +kernel

/-- V57: the rows are clamped, and the cut is logged. -/
theorem test_drw_clamps :
    after { poke 0xFFE [0x80, 0x80] (word 0xD125) with i := 0xFFE }
      (fun t => lit t [(0, 0), (0, 1), (0, 2), (1, 0)] == [true, true, false, false] && vIs 0xF 0 t &&
        t.log == [.spriteTruncated 0xFFE 5 2]) = true := by decide +kernel

/-- S4: the collision is a lit pixel going out. -/
theorem test_drawSprite_collides :
    ((drawSprite 0 0 [0xE0] (togglePixel 2 0 State.reset).1).2 &&
      lit (drawSprite 0 0 [0xE0] (togglePixel 2 0 State.reset).1).1 [(0, 0), (1, 0), (2, 0), (3, 0)] ==
        [true, true, false, false]) = true := by decide +kernel

/-- S3: the same cell under wrapped coordinates, toggled twice. -/
theorem test_toggle_undoes :
    ((togglePixel 5 7 State.reset).2 == false && (togglePixel 69 39 (togglePixel 5 7 State.reset).1).2 &&
      lit (togglePixel 5 7 State.reset).1 [(5, 7), (7, 5)] == [true, false] &&
      lit (togglePixel 69 39 (togglePixel 5 7 State.reset).1).1 [(5, 7)] == [false]) = true := by decide

/-- V61. -/
theorem test_consumeDirty :
    replied .consumeDirty State.reset
      (fun t r => r == .dirtyFlag true && replied .consumeDirty t (fun _ r => r == .dirtyFlag false)) = true := by decide

/-! ### Keypad -/

/-- Key k down, the others up. -/
def keyDown (k : Nat) (s : State) : State := (s.press k).getD s

/-- V62. -/
theorem test_skp :
    (after (keyDown 3 (regs [(1, 3)] (word 0xE19E))) (fun t => t.pc == 0x204) &&
      after (regs [(1, 3)] (word 0xE19E)) (fun t => t.pc == 0x202)) = true := by decide

/-- V66: no masking. -/
theorem test_skp_invalid :
    after (keyDown 3 (regs [(1, 0x13)] (word 0xE19E))) (fun t => t.pc == 0x202 && t.log == [.invalidKey 0x13]) =
      true := by decide

/-- V63. -/
theorem test_sknp :
    (after (regs [(1, 3)] (word 0xE1A1)) (fun t => t.pc == 0x204) &&
      after (keyDown 3 (regs [(1, 3)] (word 0xE1A1))) (fun t => t.pc == 0x202)) = true := by decide

/-- V65: an invalid identity does not skip. -/
theorem test_sknp_invalid :
    after (regs [(1, 0x10)] (word 0xE1A1)) (fun t => t.pc == 0x202 && t.log == [.invalidKey 0x10]) = true := by decide

/-- V67. -/
theorem test_press_release :
    (replied (.press 16) State.reset (fun t r => t == State.reset && r == .invalidKey 16) &&
      replied (.release 4) (keyDown 4 State.reset) (fun t r => t == State.reset && r == .ok)) = true := by decide

/-- V68. -/
theorem test_firstPressed : (keyDown 5 (keyDown 0xC State.reset)).firstPressed = some 5 := by decide

/-! ### The FX family -/

/-- V69. -/
theorem test_ldVxDt : after { word 0xF307 with dt := 0x3C } (fun t => vIs 3 0x3C t && t.dt == 0x3C) = true := by decide

/-- V70. -/
theorem test_ldVxK_waits :
    after (at' 0x300 0xF30A State.reset) (fun t => t.pc == 0x300 && vIs 3 0 t && t.log == []) = true := by decide

/-- V71. -/
theorem test_ldVxK_lowest :
    after (keyDown 5 (keyDown 0xC (at' 0x300 0xF30A State.reset))) (fun t => t.pc == 0x302 && vIs 3 5 t) = true := by
  decide

/-- V72. -/
theorem test_ldDtVx : after (regs [(1, 5)] (word 0xF115)) (fun t => t.dt == 5 && t.st == 0 && t.acc == 0) = true := by
  decide

/-- V73, the write. -/
theorem test_ldStVx : after (regs [(1, 3)] (word 0xF118)) (fun t => t.st == 3 && t.dt == 0 && !t.toneLatch) = true := by
  decide

/-- V75: not reduced to 12 bits. -/
theorem test_addIVx_past_fff : after { regs [(0, 1)] (word 0xF01E) with i := 0xFFF } (fun t => t.i == 0x1000) = true := by
  decide

/-- V76: modulo 2^16, no flag. -/
theorem test_addIVx_wraps :
    after { regs [(0, 2), (0xF, 7)] (word 0xF01E) with i := 0xFFFF } (fun t => t.i == 1 && vIs 0xF 7 t) = true := by decide

/-- S8. -/
theorem test_ldFVx : after (regs [(4, 0xA)] (word 0xF429)) (fun t => t.i == 0x032) = true := by decide

/-- V77: only the low nibble counts. -/
theorem test_ldFVx_nibble : after (regs [(1, 0x1A)] (word 0xF129)) (fun t => t.i == 50) = true := by decide

/-- V79. -/
theorem test_ldBVx :
    after { regs [(1, 255)] (word 0xF133) with i := 0x300 }
      (fun t => bytesAt t 0x300 3 == [some 2, some 5, some 5] && t.i == 0x300) = true := by decide

/-- V81: the digits that fit are stored. -/
theorem test_ldBVx_partial :
    after { regs [(1, 123)] (word 0xF133) with i := 0xFFE }
      (fun t => bytesAt t 0xFFE 2 == [some 1, some 2] && t.log == [.outOfBounds 0x1000] && t.i == 0xFFE) = true := by decide

/-- S9a. -/
theorem test_storeVx :
    after { regs [(0, 1), (1, 2), (2, 3), (3, 4)] (word 0xF355) with i := 0x360 }
      (fun t => bytesAt t 0x360 5 == [some 1, some 2, some 3, some 4, some 0] && t.i == 0x364) = true := by decide

/-- V82: the store stops at the end of memory. -/
theorem test_storeVx_stops :
    after { regs [(0, 0xA), (1, 0xB), (2, 0xC), (3, 0xD)] (word 0xF355) with i := 0xFFE }
      (fun t => bytesAt t 0xFFE 2 == [some 0xA, some 0xB] && t.log == [.outOfBounds 0x1000] && t.i == 0xFFE) = true := by
  decide

/-- S9b. -/
theorem test_loadVx :
    after { poke 0x364 [0x11, 0x12, 0x13, 0x14] (word 0xF365) with i := 0x364 }
      (fun t => vIs 0 0x11 t && vIs 1 0x12 t && vIs 2 0x13 t && vIs 3 0x14 t && vIs 4 0 t && t.i == 0x368) = true := by
  decide

/-- V85: the load stops at the end of memory. -/
theorem test_loadVx_stops :
    after { regs [(1, 0x99)] (poke 0xFFF [0x42] (word 0xF165)) with i := 0xFFF }
      (fun t => vIs 0 0x42 t && vIs 1 0x99 t && t.log == [.outOfBounds 0x1000] && t.i == 0xFFF) = true := by decide

/-! ### Memory, the stack, the timer clock and the host -/

/-- S1. -/
theorem test_memory_bounds :
    ((State.reset.memWrite 0xABC 0x5A).bind (fun t => t.memRead 0xABC)) = some 0x5A ∧
      State.reset.memWrite 0x1000 0x5A = none ∧ State.reset.memRead 0x1000 = none := by decide

/-- S2. -/
theorem test_stack_lifo :
    ((State.reset.stackPush 0x0202).bind fun s1 => (s1.stackPush 0x0304).bind fun s2 => s2.stackPop.bind fun p =>
      p.2.stackPop.map fun q => (s2.sp, p.1, q.1, q.2.sp, q.2.stackPop.isNone)) = some (2, 0x0304, 0x0202, 0, true) := by
  decide

/-- V87: the remainder is carried. -/
theorem test_tick_carries :
    (tick 16666665 (tick 16666665 { State.reset with dt := 2 }).1).1 =
      { State.reset with dt := 1, acc := 16666664 } := by decide

/-- V90: the stop edge. -/
theorem test_tick_stops_tone :
    tick 16666666 { State.reset with st := 1, toneLatch := true } = (State.reset, false, true) := by decide

/-- S5: the start edge is reported once. -/
theorem test_tick_starts_tone :
    ((tick 0 { State.reset with st := 3 }).2 == (true, false) &&
      (tick 0 (tick 0 { State.reset with st := 3 }).1).2 == (false, false)) = true := by decide

/-- V94: the glyph bytes and the entry point. -/
theorem test_reset_glyphs :
    bytesAt State.reset 0 6 = [some 0xF0, some 0x90, some 0x90, some 0x90, some 0xF0, some 0x20] ∧
      State.reset.pc = 0x200 ∧ State.reset.dirty = true := by decide

/-- 10_state.md rule R34: glyph F is the last of the 16, at FONT_BASE + 75. -/
theorem test_reset_last_glyph :
    bytesAt State.reset 75 6 = [some 0xF0, some 0x80, some 0xF0, some 0x80, some 0x80, some 0] := by decide

/-- V95: reset clears the fault. -/
theorem test_reset_clears_fault :
    replied .reset { State.reset with pc := 0xFFF, fault := some (.fetchOutOfBounds 0xFFF) }
      (fun t r => t == State.reset && r == .ok) = true := by decide

/-- loadProgram of two bytes (rule R42), then refused once a step was taken (rule R140). -/
theorem test_loadProgram :
    replied (.loadProgram [0x12, 0x00]) State.reset
      (fun t r => bytesAt t 0x1FF 4 == [some 0, some 0x12, some 0, some 0] && r == .ok &&
        after t (fun u => !isNext (transact (.loadProgram [0x12]) u))) = true := by decide

/-! ### Witnesses: for every statement with hypotheses, a state and operands that meet them -/

/-- The step at `s` answers a next state. -/
def steps (s : State) : Bool := isNext (step s)

theorem test_witness_DecodeEncodeRoundTrip :
    WellFormed (.drw 0xF 0xF 15) ∧ WellFormed (.drw 0 0 0) ∧ WellFormed .cls := by decide

theorem test_witness_EncodeDecodeRoundTrip : decode 0xD12F = .instr (.drw 1 2 15) := by decide

theorem test_witness_UnimplementedStepOnlyLogs :
    (at' 0xFFE 0xF0FF State.reset).fault = none ∧ fetchWord (at' 0xFFE 0xF0FF State.reset) = some 0xF0FF ∧
      decode 0xF0FF = .unimplemented 0xF0FF := by decide

theorem test_witness_StepRunsDecodedInstruction :
    (at' 0xFFE 0x1234 State.reset).fault = none ∧
      (at' 0xFFE 0x1234 State.reset).memRead (at' 0xFFE 0x1234 State.reset).pc.toNat = some 0x12 ∧
      (at' 0xFFE 0x1234 State.reset).memRead ((at' 0xFFE 0x1234 State.reset).pc.toNat + 1) = some 0x34 ∧
      decode (BitVec.ofNat 16 ((0x12#8).toNat * 256 + (0x34#8).toNat)) = .instr (.jp 0x234) := by decide

/-- A state whose fetch is out of bounds. -/
def pastEnd : State := { State.reset with pc := 0xFFF }

/-- A state that holds the fetch fault. -/
def stopped : State := takeFetchFault pastEnd

theorem test_witness_FetchOutOfBoundsStops :
    pastEnd.fault = none ∧ 4096 ≤ pastEnd.pc.toNat + 1 ∧ pastEnd.started = false ∧
      Transaction.loadProgram [] ≠ .step ∧ Transaction.tick 0 ≠ .step := by decide

theorem test_witness_OnlyRecordedFaultStops :
    State.reset.fault = none ∧ pastEnd.fault = none ∧ stopped.fault = some (.fetchOutOfBounds 0xFFF) := by decide

theorem test_witness_FaultSetByFetchClearedByReset :
    (∃ t, step (word 0x1200) = .next t) ∧ (∃ t, step pastEnd = .next t) ∧
      (∃ p, transact (.tick 1) stopped = .next p) ∧ (∃ p, transact .reset stopped = .next p) :=
  ⟨exists_next (by decide), exists_next (by decide), exists_next (by decide), exists_next (by decide)⟩

/-- The admitted configuration with the highest FONT_BASE. -/
def highFont : Config := { Config.default with fontBase := 0x1B0, stepNs := 1 }

theorem test_witness_ResetTableHolds :
    Config.default.Admitted ∧ highFont.Admitted ∧ (0x1AF < highFont.fontBase ∧ highFont.fontBase + 80 ≤ 0x200) := by
  decide

theorem test_witness_ResetMeetsInvariant : Config.default.Admitted ∧ highFont.Admitted := by decide

/-- A state at the bounds of the invariant: a full stack of the highest slots, about to run a CALL. -/
def fullStack : State := { word 0x2300 with sp := 16, stack := Vector.replicate 16 0x1000 }

theorem test_witness_StepKeepsInvariant :
    (StateInv fullStack ∧ ∃ t, step fullStack = .next t) ∧
      (StateInv { State.reset with pc := 0x10FE } ∧ ∃ t, step { State.reset with pc := 0x10FE } = .next t) :=
  ⟨⟨⟨by decide, by decide, by decide, by decide, by decide, by decide, by decide⟩,
      exists_next (by decide)⟩,
    ⟨⟨by decide, by decide, by decide, by decide, by decide, by decide, by decide⟩,
      exists_next (by decide)⟩⟩

theorem test_witness_TransactionsKeepInvariant :
    StateInv stopped ∧ (∃ p, transact (.tick 16666667) stopped = .next p) ∧
      (∃ p, transact (.loadProgram [0x12, 0x00]) stopped = .next p) ∧ ∃ p, transact (.press 15) stopped = .next p :=
  ⟨⟨by decide, by decide, by decide, by decide, by decide, by decide, by decide⟩,
    exists_next (by decide), exists_next (by decide), exists_next (by decide)⟩

theorem test_witness_ReachableStatesMeetInvariant : Reachable (State.resetWith highFont) ∧
    Reachable (tick 1 (State.resetWith highFont)).1 :=
  ⟨.reset _ (by decide), .transact (.tick 1) _ _ _ (.reset _ (by decide)) rfl⟩

theorem test_witness_InstructionWriteSets :
    (∃ t, exec (.drw 1 2 1) State.reset = .next t) ∧ (∃ t, exec .ret State.reset = .next t) ∧
      ∃ t, exec (.loadVx 0xF) State.reset = .next t :=
  ⟨exists_next (by decide), exists_next (by decide), exists_next (by decide)⟩

theorem test_witness_RegisterWriteSets :
    (∃ t, exec (.addReg 1 2) State.reset = .next t) ∧ ¬mayWriteV (.addReg 1 2) 2 ∧
      (∃ t, exec (.loadVx 3) State.reset = .next t) ∧ ¬mayWriteV (.loadVx 3) 4 :=
  ⟨exists_next (by decide), by unfold mayWriteV; decide, exists_next (by decide), by unfold mayWriteV; decide⟩

theorem test_witness_ImplicitFlagIsZeroOrOne :
    (∃ t, exec (.subn 1 2) State.reset = .next t) ∧ (∃ t, exec (.drw 1 2 0) State.reset = .next t) ∧
      (∃ t, exec (.shr 0xE 2) State.reset = .next t) ∧ (0xE : Reg) ≠ vf ∧
      (∃ t, exec (.shr vf 2) State.reset = .next t) ∧ ∃ t, exec (.shl vf 2) State.reset = .next t :=
  ⟨exists_next (by decide), exists_next (by decide), exists_next (by decide), by decide, exists_next (by decide),
    exists_next (by decide)⟩

theorem test_witness_PcChangesOnlyAsListed :
    (∃ t, exec (.call 0x300) fullStack = .next t) ∧ (∃ t, exec .ret fullStack = .next t) ∧
      ∃ t, exec (.ldVxK 1) State.reset = .next t :=
  ⟨exists_next (by decide), exists_next (by decide), exists_next (by decide)⟩

theorem test_witness_RetPopsOrFallsThrough :
    State.reset.sp = 0 ∧ { State.reset with sp := 1 }.sp = 0 + 1 ∧ fullStack.sp = 15 + 1 := by decide

theorem test_witness_CallPushesOrFallsThrough :
    fullStack.sp = 16 ∧ State.reset.sp = 0 ∧ { State.reset with sp := 15 }.sp = 15 := by decide

/-- A state about to draw `bytes` with I = i; pixel (0, 0) is lit. -/
def drawing (i : Word) (bytes : List Byte) : State := { (togglePixel 0 0 (poke i.toNat bytes State.reset)).1 with i := i }

theorem test_witness_DrawXorsTheSprite_rows :
    (0 = if 4096 ≤ (0x1000#16).toNat then 0 else if 4096 < (0x1000#16).toNat + 1 then 4096 - (0x1000#16).toNat else 1) ∧
      (1 = if 4096 ≤ (0xFFF#16).toNat then 0 else if 4096 < (0xFFF#16).toNat + 2 then 4096 - (0xFFF#16).toNat else 2) ∧
      (15 = if 4096 ≤ (0xFF1#16).toNat then 0 else if 4096 < (0xFF1#16).toNat + 15 then 4096 - (0xFF1#16).toNat else 15) := by
  decide

theorem test_witness_DrawXorsTheSprite_lit :
    UnderSprite (drawing 0xFFF [0x80]) 1 2 1 0 0 ∧ (drawing 0xFFF [0x80]).getPixel 0 0 = true :=
  ⟨⟨0, 0, 0x80, by decide, by decide, by decide, by decide, by decide, by decide⟩, by decide⟩

theorem test_witness_DrawXorsTheSprite_unlit :
    (∀ px py, ¬UnderSprite (drawing 0x1000 []) 1 2 0 px py) ∧
      UnderSprite { drawing 0x300 [0x01] with pix := State.reset.pix } 1 2 1 7 0 :=
  ⟨fun _ _ ⟨_, _, _, h, _⟩ => absurd h (by omega),
    ⟨0, 7, 0x01, by decide, by decide, by decide, by decide, by decide, by decide⟩⟩

theorem test_witness_KeySkipsTestTheKeypad :
    ((regs [(1, 15)] State.reset).readV 1).toNat = 15 ∧ 16 ≤ ((regs [(1, 16)] State.reset).readV 1).toNat := by decide

theorem test_witness_HostKeyTransactions : 15 < 16 ∧ 16 ≤ 16 ∧ (keyDown 15 State.reset).key[15] = true ∧
    State.reset.key[15] = false := by decide

theorem test_witness_WaitForKeyRewindsOrLoads :
    (∀ k, k < 16 → State.reset.isDown k = some false) ∧ (keyDown 15 State.reset).isDown 15 = some true ∧
      (∀ j, j < 15 → (keyDown 15 State.reset).isDown j = some false) ∧ (keyDown 0 State.reset).isDown 0 = some true := by
  decide

theorem test_witness_GlyphAddressOfLowNibble : (State.resetWith highFont).cfg.fontBase + 80 ≤ 0x200 := by decide

theorem test_witness_BcdStoresEachDigit :
    (0xFFD#16).toNat + 2 < 4096 ∧ (0xFFE#16).toNat + 1 < 4096 ∧ (0xFFF#16).toNat < 4096 ∧ 4096 ≤ (0x1000#16).toNat := by
  decide

theorem test_witness_BlockStoreStopsAtTheEnd :
    (0xFF0#16).toNat + (0xF#4).toNat < 4096 ∧ 4096 ≤ (0xFF1#16).toNat + (0xF#4).toNat ∧
      (0x0#4).toNat ≤ (0xF#4).toNat ∧ (0xFF1#16).toNat + (0xE#4).toNat < 4096 := by decide

theorem test_witness_BlockLoadStopsAtTheEnd :
    (0xFF0#16).toNat + (0xF#4).toNat < 4096 ∧ 4096 ≤ (0xFF1#16).toNat + (0xF#4).toNat ∧
      (0x3#4).toNat < (0x4#4).toNat ∧ 4096 ≤ (0xFF1#16).toNat + (0xF#4).toNat := by decide

theorem test_witness_TickCountsTimersDown :
    0 < State.reset.cfg.stepNs ∧ 3 = ({ State.reset with acc := 5 }.acc + 50000000) / State.reset.cfg.stepNs ∧
      ∃ t, exec (.ldDtVx 1) (regs [(1, 9)] State.reset) = .next t ∧ t.dt ≠ (regs [(1, 9)] State.reset).dt :=
  ⟨by decide, by decide, _, rfl, by decide⟩

theorem test_witness_OneStepFeedAndOneStartTone :
    { State.reset with st := 1 }.acc = 0 ∧ 0 < { State.reset with st := 1 }.cfg.stepNs ∧
      { State.reset with st := 1 }.st ≠ 0 ∧ { State.reset with st := 1 }.toneLatch = false := by decide

theorem test_witness_LoadProgramCopiesOrFails :
    State.reset.started = false ∧ (List.replicate 3584 (0 : Byte)).length ≤ 3584 ∧
      3584 < (List.replicate 3585 (0 : Byte)).length :=
  ⟨rfl, by rw [List.length_replicate], by rw [List.length_replicate]; decide⟩

theorem test_witness_LoadAfterFirstStepRefused :
    (word 0x1200).pc.toNat + 1 < 4096 ∧ (∃ t, step (word 0x1200) = .next t) ∧
      { State.reset with started := true }.started = true ∧
      (∃ p, transact (.tick 1) { State.reset with started := true } = .next p) ∧ ∃ p, transact .reset stopped = .next p :=
  ⟨by decide, exists_next (by decide), rfl, exists_next (by decide), exists_next (by decide)⟩

theorem test_witness_CleanLaunchState : ∃ s, CleanLaunch [0x12, 0x00] s :=
  ⟨copyBytes 0x200 [0x12, 0x00] State.reset, by unfold CleanLaunch; decide⟩

theorem test_witness_MemoryReadAfterWrite : 4095 < 4096 ∧ 4096 ≤ 4096 := by decide

theorem test_witness_StackIsLastInFirstOut :
    { State.reset with sp := 14 }.sp + 2 ≤ 16 ∧ fullStack.sp = 16 ∧ State.reset.sp = 0 := by decide

theorem test_witness_ParkedAndWaitingStatesStay :
    parkedAt 0x200 (word 0x1200) = true ∧ parkedAt 0xFFE (at' 0xFFE 0x1FFE State.reset) = true ∧
      (word 0xF30A).fault = none ∧ waiting (word 0xF30A) = true := by decide

theorem test_witness_LogIsNeverRead :
    (∃ t, step (word 0x00EE) = .next t) ∧ step stopped = .fault (.fetchOutOfBounds 0xFFF) :=
  ⟨exists_next (by decide), rfl⟩

theorem test_witness_HostOnlyStateIsNeverRead :
    (∃ t, step (word 0xF118) = .next t) ∧ ∃ t, step (word 0x00E0) = .next t :=
  ⟨exists_next (by decide), exists_next (by decide)⟩

theorem test_witness_StackAboveSpIsNeverRead :
    { word 0x00EE with sp := 1 }.sp ≤ 16 ∧
      (∀ (k : Nat) (h : k < 16), k < 1 → ((word 0x00EE).stack.set 1 0x123)[k] = (word 0x00EE).stack[k]) ∧
      ∃ t, step { word 0x00EE with sp := 1 } = .next t :=
  ⟨by decide, by decide, exists_next (by decide)⟩

theorem test_witness_StoredCodeIsFetched :
    (0#4).toNat + 1 ≤ (1#4).toNat ∧ (0xFFE#16).toNat + (1#4).toNat < 4096 ∧
      (0xFFE#16).toNat = { State.reset with i := 0xFFE }.i.toNat + (0#4).toNat := by decide

end Sys2Proof.Tests
end

section
/-! SUPPORT. Frames of the state's operations (20_memory.md rule R46 and the write rules of 10_state.md): the
parts of the state each operation leaves alone, and from them the frame of every instruction. -/

namespace Sys2Proof.Machine

/-! ### Frames compose -/

theorem SameBut.refl (ps : List Part) (s : State) : SameBut ps s s := by
  constructor <;> intros <;> rfl

/-- A frame still holds with more parts listed. -/
theorem SameBut.mono {ps qs : List Part} {s t : State} (h : SameBut ps s t) (hpq : ps ⊆ qs) : SameBut qs s t where
  v hn := h.v (mt (@hpq _) hn)
  i hn := h.i (mt (@hpq _) hn)
  pc hn := h.pc (mt (@hpq _) hn)
  sp hn := h.sp (mt (@hpq _) hn)
  stack hn := h.stack (mt (@hpq _) hn)
  dt hn := h.dt (mt (@hpq _) hn)
  st hn := h.st (mt (@hpq _) hn)
  pix hn := h.pix (mt (@hpq _) hn)
  dirty hn := h.dirty (mt (@hpq _) hn)
  mem hn := h.mem (mt (@hpq _) hn)
  log hn := h.log (mt (@hpq _) hn)
  draws hn := h.draws (mt (@hpq _) hn)
  key := h.key
  acc := h.acc
  toneLatch := h.toneLatch
  fault := h.fault
  cfg := h.cfg
  started := h.started

/-- Two changes in turn keep what both keep. -/
theorem SameBut.trans {ps : List Part} {s t u : State} (h : SameBut ps s t) (h' : SameBut ps t u) :
    SameBut ps s u where
  v hn r := (h'.v hn r).trans (h.v hn r)
  i hn := (h'.i hn).trans (h.i hn)
  pc hn := (h'.pc hn).trans (h.pc hn)
  sp hn := (h'.sp hn).trans (h.sp hn)
  stack hn := (h'.stack hn).trans (h.stack hn)
  dt hn := (h'.dt hn).trans (h.dt hn)
  st hn := (h'.st hn).trans (h.st hn)
  pix hn := (h'.pix hn).trans (h.pix hn)
  dirty hn := (h'.dirty hn).trans (h.dirty hn)
  mem hn a := (h'.mem hn a).trans (h.mem hn a)
  log hn := (h'.log hn).trans (h.log hn)
  draws hn := (h'.draws hn).trans (h.draws hn)
  key := h'.key.trans h.key
  acc := h'.acc.trans h.acc
  toneLatch := h'.toneLatch.trans h.toneLatch
  fault := h'.fault.trans h.fault
  cfg := h'.cfg.trans h.cfg
  started := h'.started.trans h.started

/-- Two changes in turn keep what neither may write. -/
theorem SameBut.append {ps qs : List Part} {s t u : State} (h : SameBut ps s t) (h' : SameBut qs t u) :
    SameBut (ps ++ qs) s u :=
  (h.mono (List.subset_append_left ps qs)).trans (h'.mono (List.subset_append_right ps qs))

/-! ### Frames of the updates -/

theorem sameBut_setV (s : State) (x : Reg) (b : Byte) : SameBut [.v] s (s.setV x b) := by
  constructor <;> simp

theorem sameBut_setFlag (s : State) (c : Bool) : SameBut [.v] s (s.setFlag c) := sameBut_setV s vf _

theorem sameBut_setI (s : State) (w : Word) : SameBut [.i] s (s.setI w) := by
  constructor <;> simp

theorem sameBut_setPc (s : State) (w : Word) : SameBut [.pc] s (s.setPc w) := by
  constructor <;> simp

theorem sameBut_skipIf (s : State) (c : Bool) : SameBut [.pc] s (s.skipIf c) := by
  rw [State.skipIf_eq]
  exact sameBut_setPc s _

theorem sameBut_logEvent (s : State) (e : LogEvent) : SameBut [.log] s (s.logEvent e) := by
  constructor <;> simp

theorem sameBut_clearDisplay (s : State) : SameBut [.display] s (clearDisplay s) := by
  constructor <;> simp

/-- Writes to the display's two fields. -/
theorem sameBut_display (s : State) (p : Pixels) (d : Bool) :
    SameBut [.display] s { s with pix := p, dirty := d } := by
  constructor <;> simp [State.readV, State.memRead]

/-- Writes to the call stack's two fields. -/
theorem sameBut_stack (s : State) (stack : Vector Word 16) (sp : Nat) :
    SameBut [.stack] s { s with stack := stack, sp := sp } := by
  constructor <;> simp [State.readV, State.memRead]

theorem sameBut_dt (s : State) (b : Byte) : SameBut [.dt] s { s with dt := b } := by
  constructor <;> simp [State.readV, State.memRead]

theorem sameBut_st (s : State) (b : Byte) : SameBut [.st] s { s with st := b } := by
  constructor <;> simp [State.readV, State.memRead]

theorem sameBut_draws (s : State) (n : Nat) : SameBut [.draws] s { s with draws := n } := by
  constructor <;> simp [State.readV, State.memRead]

theorem sameBut_log (s : State) (l : List LogEvent) : SameBut [.log] s { s with log := l } := by
  constructor <;> simp [State.readV, State.memRead]

theorem sameBut_mem_log (s : State) (m : List Host.Cell) (l : List LogEvent) :
    SameBut [.mem, .log] s { s with mem := m, log := l } := by
  constructor <;> simp [State.readV]

theorem sameBut_v_log (s : State) (v : Vector Byte 16) (l : List LogEvent) :
    SameBut [.v, .log] s { s with v := v, log := l } := by
  constructor <;> simp [State.memRead]

/-! ### Frames of the shared operations -/

theorem sameBut_writeResultThenFlag (x : Reg) (b : Byte) (c : Bool) (s : State) :
    SameBut [.v] s (writeResultThenFlag x b c s) :=
  (sameBut_setV s x b).trans (sameBut_setFlag _ c)

theorem sameBut_stackPush {s t : State} {w : Word} (h : s.stackPush w = some t) : SameBut [.stack] s t := by
  obtain ⟨hs, rfl⟩ := State.stackPush_cases h
  exact sameBut_stack s _ _

theorem sameBut_stackPop {s t : State} {w : Word} (h : s.stackPop = some (w, t)) : SameBut [.stack] s t := by
  obtain ⟨hs, -, rfl⟩ := State.stackPop_cases h
  exact sameBut_stack s s.stack _

theorem sameBut_storeRegs (base : Nat) (js : List Nat) (s : State) :
    SameBut [.mem, .log] s (storeRegs base js s).1 := by
  obtain ⟨m, l, h, -, -⟩ := storeRegs_shape base js s
  exact h ▸ sameBut_mem_log s m _

theorem sameBut_loadRegs (base : Nat) (js : List Nat) (s : State) :
    SameBut [.v, .log] s (loadRegs base js s).1 := by
  obtain ⟨v, l, h, -⟩ := loadRegs_shape base js s
  exact h ▸ sameBut_v_log s v _

theorem sameBut_storeBytes (a : Nat) (bs : List Byte) (s : State) :
    SameBut [.mem, .log] s (storeBytes a bs s) := by
  obtain ⟨m, l, h, -⟩ := storeBytes_shape a bs s
  exact h ▸ sameBut_mem_log s m _

theorem sameBut_advanceIndex (x : Reg) (moved : State × Bool) :
    SameBut [.i] moved.1 (advanceIndex x moved) := by
  unfold advanceIndex
  split
  · exact sameBut_setI _ _
  · exact .refl _ _

theorem sameBut_logClamp (s : State) (n : Nat) : SameBut [.log] s (logClamp s n) := by
  obtain ⟨l, h⟩ := logClamp_shape s n
  exact h ▸ sameBut_log s _

theorem sameBut_drawSprite (ox oy : Nat) (bs : List Byte) (s : State) :
    SameBut [.display] s (drawSprite ox oy bs s).1 := by
  obtain ⟨p, d, h⟩ := drawSprite_shape ox oy bs s
  exact h ▸ sameBut_display s p d

theorem sameBut_keySkip (x : Reg) (want : Bool) (s : State) : SameBut [.pc, .log] s (keySkip x want s) := by
  unfold keySkip
  split
  · exact (sameBut_logEvent s _).mono (by simp)
  · exact (sameBut_skipIf s _).mono (by simp)

/-! ### Frames of the instructions -/

theorem execRet_sameBut (s : State) : ∃ t, execRet s = .next t ∧ SameBut (partsWritten .ret) s t := by
  unfold execRet
  split
  · exact ⟨_, rfl, (sameBut_logEvent s _).mono (by simp [partsWritten])⟩
  · next h => exact ⟨_, rfl, ((sameBut_stackPop h).append (sameBut_setPc _ _)).mono (by simp [partsWritten])⟩

theorem execCall_sameBut (nnn : Addr12) (s : State) :
    ∃ t, execCall nnn s = .next t ∧ SameBut (partsWritten (.call nnn)) s t := by
  unfold execCall
  split
  · exact ⟨_, rfl, (sameBut_logEvent s _).mono (by simp [partsWritten])⟩
  · next h => exact ⟨_, rfl, ((sameBut_stackPush h).append (sameBut_setPc _ _)).mono (by simp [partsWritten])⟩

theorem execLdVxK_sameBut (x : Reg) (s : State) :
    ∃ t, execLdVxK x s = .next t ∧ SameBut (partsWritten (.ldVxK x)) s t := by
  unfold execLdVxK
  split
  · exact ⟨_, rfl, (sameBut_setPc s _).mono (by simp [partsWritten])⟩
  · exact ⟨_, rfl, (sameBut_setV s x _).mono (by simp [partsWritten])⟩

theorem execDrw_sameBut (x y : Reg) (n : Nat) (s : State) :
    ∃ t, execDrw x y n s = .next t ∧ SameBut (partsWritten (.drw x y n)) s t := by
  unfold execDrw
  split
  · exact ⟨_, rfl, (sameBut_setFlag s _).mono (by simp [partsWritten])⟩
  · exact ⟨_, rfl, (((sameBut_logClamp s n).append (sameBut_drawSprite _ _ _ _)).append
      (sameBut_setFlag _ _)).mono (by simp [partsWritten])⟩

/-- Every instruction answers a next state, and writes its own parts alone. -/
theorem exec_next_sameBut (i : Instr) (s : State) : ∃ t, exec i s = .next t ∧ SameBut (partsWritten i) s t := by
  cases i with
  | cls => exact ⟨_, rfl, sameBut_clearDisplay s⟩
  | ret => exact execRet_sameBut s
  | call nnn => exact execCall_sameBut nnn s
  | jp | jpV0 => exact ⟨_, rfl, sameBut_setPc s _⟩
  | seImm | sneImm | seReg | sneReg => exact ⟨_, rfl, sameBut_skipIf s _⟩
  | ldImm | addImm | ldReg | ldVxDt => exact ⟨_, rfl, sameBut_setV s _ _⟩
  | orReg | andReg | xorReg | addReg | subReg | subn => exact ⟨_, rfl, sameBut_writeResultThenFlag _ _ _ s⟩
  | shr | shl => exact ⟨_, rfl, (sameBut_setFlag s _).trans (sameBut_setV _ _ _)⟩
  | ldI | addIVx | ldFVx => exact ⟨_, rfl, sameBut_setI s _⟩
  | rnd => exact ⟨_, rfl, ((sameBut_draws s _).append (sameBut_setV _ _ _)).mono (by simp [partsWritten])⟩
  | drw x y n => exact execDrw_sameBut x y n s
  | skp x | sknp x => exact ⟨_, rfl, sameBut_keySkip x _ s⟩
  | ldVxK x => exact execLdVxK_sameBut x s
  | ldDtVx => exact ⟨_, rfl, sameBut_dt s _⟩
  | ldStVx => exact ⟨_, rfl, sameBut_st s _⟩
  | ldBVx => exact ⟨_, rfl, sameBut_storeBytes _ _ s⟩
  | storeVx x =>
    exact ⟨_, rfl, ((sameBut_storeRegs _ _ s).append (sameBut_advanceIndex x _)).mono (by simp [partsWritten])⟩
  | loadVx x =>
    exact ⟨_, rfl, ((sameBut_loadRegs _ _ s).append (sameBut_advanceIndex x _)).mono (by simp [partsWritten])⟩

theorem exec_sameBut {i : Instr} {s t : State} (h : exec i s = .next t) : SameBut (partsWritten i) s t := by
  obtain ⟨u, hu, hframe⟩ := exec_next_sameBut i s
  obtain rfl : u = t := by simpa [hu] using h
  exact hframe

/-- FX15 alone may write DT (10_state.md rule R26). -/
theorem dt_mem_partsWritten {i : Instr} : .dt ∈ partsWritten i ↔ ∃ x, i = .ldDtVx x := by
  cases i <;> simp [partsWritten]

/-- FX18 alone may write ST (10_state.md rule R26). -/
theorem st_mem_partsWritten {i : Instr} : .st ∈ partsWritten i ↔ ∃ x, i = .ldStVx x := by
  cases i <;> simp [partsWritten]

end Sys2Proof.Machine
end

section
/-! PROOFS. What a tick does to each field, and the obligation about it (60_exceptions.md rule R131, rule R133). -/

namespace Sys2Proof.Machine

theorem tick_dt_toNat (e : Nat) (s : State) :
    (tick e s).1.dt.toNat = s.dt.toNat - min ((s.acc + e) / s.cfg.stepNs) s.dt.toNat := countDown_toNat _ s.dt

theorem tick_st_toNat (e : Nat) (s : State) :
    (tick e s).1.st.toNat = s.st.toNat - min ((s.acc + e) / s.cfg.stepNs) s.st.toNat := countDown_toNat _ s.st

theorem tick_acc (e : Nat) (s : State) : (tick e s).1.acc = (s.acc + e) % s.cfg.stepNs := rfl

theorem tick_acc_lt (e : Nat) {s : State} (h : 0 < s.cfg.stepNs) : (tick e s).1.acc < s.cfg.stepNs :=
  Nat.mod_lt _ h

/-- Settles O48: the tick by what it does to each of its fields, the instructions by their frame. -/
theorem tickCountsTimersDown : Obligations.TickCountsTimersDown := by
  unfold Obligations.TickCountsTimersDown
  constructor
  · rintro s elapsed _ hpos rfl
    exact ⟨(tick elapsed s).1, _, _, rfl, tick_dt_toNat elapsed s, tick_st_toNat elapsed s, tick_acc elapsed s,
      tick_acc_lt elapsed hpos, rfl⟩
  · intro i s t h
    have hframe := exec_sameBut h
    exact ⟨fun hdt => dt_mem_partsWritten.1 (not_imp_comm.1 hframe.dt hdt),
      fun hst => st_mem_partsWritten.1 (not_imp_comm.1 hframe.st hst), hframe.acc, hframe.toneLatch⟩

end Sys2Proof.Machine
end

section
/-! PROOFS. MemRead and MemWrite at every address, loadProgram at every length, and the obligations about them
(20_memory.md rule R39 to rule R42). -/

namespace Sys2Proof.Machine

/-! ### MemRead and MemWrite -/

theorem State.memRead_eq_none {s : State} {a : Nat} : s.memRead a = none ↔ memSize ≤ a := by
  simp [State.memRead]

theorem State.memWrite_of_lt (s : State) {a : Nat} (v : Byte) (h : a < memSize) :
    s.memWrite a v = some { s with mem := Memory.put s.cfg a v s.mem } := if_pos h

/-- Settles O54: below 4096 by the read of any byte after a write, from 4096 on by when each operation fails. -/
theorem memoryReadAfterWrite : Obligations.MemoryReadAfterWrite := by
  unfold Obligations.MemoryReadAfterWrite
  intro s a v
  constructor
  · intro ha
    have hw := s.memWrite_of_lt v ha
    have hread := State.memRead_of_memWrite hw
    exact ⟨_, hw, (hread a).trans (if_pos rfl), fun b hb => (hread b).trans (if_neg hb), rfl⟩
  · exact fun ha => ⟨State.memWrite_eq_none.2 ha, State.memRead_eq_none.2 ha⟩

/-! ### loadProgram -/

/-- Every byte copied to addresses that exist is read at its place. -/
theorem copyBytes_memRead_copied {a : Nat} {bs : List Byte} (s : State) (h : a + bs.length ≤ memSize) {j : Nat}
    (hj : j < bs.length) : (copyBytes a bs s).memRead (a + j) = some bs[j] := by
  have hin : a ≤ a + j ∧ a + j < a + bs.length := by omega
  rw [copyBytes_memRead a bs s h, if_pos hin, Nat.add_sub_cancel_left, List.getElem?_eq_getElem hj]

/-- Copied bytes change no byte beside them. -/
theorem copyBytes_memRead_beside {a : Nat} {bs : List Byte} (s : State) (h : a + bs.length ≤ memSize) {b : Nat}
    (hb : b < a ∨ a + bs.length ≤ b) : (copyBytes a bs s).memRead b = s.memRead b := by
  have hout : ¬(a ≤ b ∧ b < a + bs.length) := by omega
  rw [copyBytes_memRead a bs s h, if_neg hout]

theorem copyBytes_eq_with_mem (a : Nat) (bs : List Byte) (s : State) :
    copyBytes a bs s = { s with mem := (copyBytes a bs s).mem } := by
  obtain ⟨m, hm, -⟩ := copyBytes_shape a bs s
  rw [hm]

theorem loadProgram_of_le {bytes : List Byte} (s : State) (h : bytes.length ≤ memSize - progBase) :
    loadProgram bytes s = some (copyBytes progBase bytes s) := if_neg (Nat.not_lt.2 h)

theorem loadProgram_of_lt {bytes : List Byte} (s : State) (h : memSize - progBase < bytes.length) :
    loadProgram bytes s = none := if_pos h

theorem transact_loadProgram_of_some {bytes : List Byte} {s t : State} (hs : s.started = false)
    (h : loadProgram bytes s = some t) : transact (.loadProgram bytes) s = .next (t, .ok) := by
  simp [transact, hs, h]

theorem transact_loadProgram_of_none {bytes : List Byte} {s : State} (hs : s.started = false)
    (h : loadProgram bytes s = none) :
    transact (.loadProgram bytes) s = .next (s, .programTooLarge bytes.length) := by
  simp [transact, hs, h]

/-- Settles O51: a program that fits by the reads after copied bytes, a longer one by the refusal to copy. -/
theorem loadProgramCopiesOrFails : Obligations.LoadProgramCopiesOrFails := by
  unfold Obligations.LoadProgramCopiesOrFails
  intro s bytes hs
  constructor
  · intro hle
    have hfit : progBase + bytes.length ≤ memSize := by simp only [progBase, memSize]; omega
    exact ⟨copyBytes progBase bytes s, transact_loadProgram_of_some hs (loadProgram_of_le s hle),
      fun _ hj => copyBytes_memRead_copied s hfit hj, fun _ hb => copyBytes_memRead_beside s hfit hb,
      copyBytes_eq_with_mem progBase bytes s⟩
  · exact fun hlt => transact_loadProgram_of_none hs (loadProgram_of_lt s hlt)

end Sys2Proof.Machine
end

section
/-! PROOFS. Display clear, jump, call and the skips on registers, and the obligations about them
(40_flow.md rule R70, rule R72 to rule R77). -/

namespace Sys2Proof.Machine

/-! ### Display clear and jump -/

@[simp] theorem getPixel_clearDisplay (s : State) (x y : Nat) : (clearDisplay s).getPixel x y = false := by
  simp [State.getPixel, pixelAt]

/-- Settles O20: a cleared display reads 0 in every cell, and the clear writes the display alone. -/
theorem clsClearsTheDisplay : Obligations.ClsClearsTheDisplay := by
  unfold Obligations.ClsClearsTheDisplay
  exact fun s => ⟨clearDisplay s, rfl, getPixel_clearDisplay s, rfl, sameBut_clearDisplay s⟩

@[simp] theorem toNat_zext16 (nnn : Addr12) : (zext16 nnn).toNat = nnn.toNat :=
  BitVec.toNat_setWidth_of_le (by decide)

/-- Settles O22: zero extension keeps the value of nnn, and the jump writes pc alone. -/
theorem jpSetsPc : Obligations.JpSetsPc := by
  unfold Obligations.JpSetsPc
  exact fun s nnn => ⟨s.setPc (zext16 nnn), rfl, toNat_zext16 nnn, sameBut_setPc s _⟩

/-! ### Call -/

theorem exec_call_of_full {s : State} (nnn : Addr12) (h : 16 ≤ s.sp) :
    exec (.call nnn) s = .next (s.logEvent (.stackOverflow s.instrAddr)) := by
  simp [exec, execCall, State.stackPush_eq_none.2 h]

theorem exec_call_of_room {s : State} (nnn : Addr12) (h : s.sp < 16) :
    exec (.call nnn) s =
      .next (({ s with stack := s.stack.set s.sp s.pc h, sp := s.sp + 1 } : State).setPc (zext16 nnn)) := by
  simp [exec, execCall, State.stackPush_of_lt s s.pc h]

/-- Settles O23: by whether the push finds room; the slots by the reads of a vector after one is set. -/
theorem callPushesOrFallsThrough : Obligations.CallPushesOrFallsThrough := by
  unfold Obligations.CallPushesOrFallsThrough
  constructor
  · intro s nnn hsp
    exact ⟨_, exec_call_of_full nnn hsp.ge, rfl, sameBut_logEvent s _⟩
  · rintro s nnn k hk rfl
    have hpushed : (s.stack.set s.sp s.pc hk)[s.sp] = s.pc := Vector.getElem_set_self hk
    have hkept : ∀ (j : Nat) (hj : j < 16), j ≠ s.sp → (s.stack.set s.sp s.pc hk)[j] = s.stack[j] :=
      fun j hj hne => Vector.getElem_set_ne hk hj hne.symm
    have hframe := (sameBut_stack s (s.stack.set s.sp s.pc hk) (s.sp + 1)).append (sameBut_setPc _ (zext16 nnn))
    exact ⟨_, exec_call_of_room nnn hk, hpushed, hkept, rfl, toNat_zext16 nnn, hframe.mono (by simp)⟩

/-! ### Skips -/

/-- An instruction that skips on the condition c completes: pc goes on by 2 exactly when c holds, and nothing
else changes. -/
theorem completes_of_exec_eq_skipIf {i : Instr} {s : State} {c : Bool} (h : exec i s = .next (s.skipIf c)) :
    Completes i s fun t => (c = true → t.pc = s.pc + 2) ∧ (c = false → t.pc = s.pc) ∧ SameBut [.pc] s t := by
  refine ⟨s.skipIf c, h, ?_, ?_, sameBut_skipIf s c⟩
  · rintro rfl; rfl
  · rintro rfl; rfl

/-- Settles O24: both skip on a comparison of V[x] with nn. -/
theorem skipsOnImmediate : Obligations.SkipsOnImmediate := by
  unfold Obligations.SkipsOnImmediate
  intro s x nn
  constructor
  · simpa using completes_of_exec_eq_skipIf (i := .seImm x nn) (c := s.readV x == nn) rfl
  · simpa using completes_of_exec_eq_skipIf (i := .sneImm x nn) (c := s.readV x != nn) rfl

/-- Settles O25: both skip on a comparison of V[x] with V[y]. -/
theorem skipsOnRegisters : Obligations.SkipsOnRegisters := by
  unfold Obligations.SkipsOnRegisters
  intro s x y
  constructor
  · simpa using completes_of_exec_eq_skipIf (i := .seReg x y) (c := s.readV x == s.readV y) rfl
  · simpa using completes_of_exec_eq_skipIf (i := .sneReg x y) (c := s.readV x != s.readV y) rfl

end Sys2Proof.Machine
end

section
/-! PROOFS. Immediate and register loads and the immediate add, and the obligations about them (41_alu.md
rule R78, rule R79, rule R81). -/

namespace Sys2Proof.Machine

/-- An instruction that writes b to V[x] and does nothing else completes: V[x] reads b, every other register reads
as before, and the rest is left alone. -/
theorem completes_of_exec_eq_setV {i : Instr} {s : State} {x : Reg} {b : Byte}
    (h : exec i s = .next (s.setV x b)) :
    Completes i s fun t => t.readV x = b ∧ (∀ r, r ≠ x → t.readV r = s.readV r) ∧ SameBut [.v] s t := by
  have hsame : (s.setV x b).readV x = b := by simp
  have hother : ∀ r, r ≠ x → (s.setV x b).readV r = s.readV r := fun r hr => by simp [hr]
  exact ⟨s.setV x b, h, hsame, hother, sameBut_setV s x b⟩

/-- Settles O26: both write V[x] alone, and byte addition is addition modulo 256. -/
theorem immediateLoadAndAdd : Obligations.ImmediateLoadAndAdd := by
  unfold Obligations.ImmediateLoadAndAdd
  intro s x nn
  constructor
  · exact completes_of_exec_eq_setV rfl
  · obtain ⟨t, hexec, hx, hframe⟩ := completes_of_exec_eq_setV (i := .addImm x nn) (s := s) rfl
    have hsum : (t.readV x).toNat = ((s.readV x).toNat + nn.toNat) % 256 := by rw [hx, BitVec.toNat_add]
    exact ⟨t, hexec, hsum, hframe⟩

/-- Settles O27: the copy writes V[x] alone. -/
theorem registerLoadCopies : Obligations.RegisterLoadCopies := by
  unfold Obligations.RegisterLoadCopies
  exact fun s x y => completes_of_exec_eq_setV rfl

end Sys2Proof.Machine
end

section
/-! PROOFS. Index load and jump with offset, and the obligation about them (42_index_random.md rule R91, rule R92). -/

namespace Sys2Proof.Machine

@[simp] theorem toNat_zextByte (b : Byte) : (zextByte b).toNat = b.toNat :=
  BitVec.toNat_setWidth_of_le (by decide)

/-- A 12-bit address plus a byte stays below 2^16, so the 16-bit sum does not wrap (rule R92: 0x0000 to 0x10FE). -/
theorem toNat_zext16_add_zextByte (nnn : Addr12) (b : Byte) :
    (zext16 nnn + zextByte b).toNat = nnn.toNat + b.toNat := by
  have hlt : (zext16 nnn).toNat + (zextByte b).toNat < 2 ^ 16 := by
    rw [toNat_zext16, toNat_zextByte]
    omega
  rw [BitVec.toNat_add_of_lt hlt, toNat_zext16, toNat_zextByte]

/-- Settles O32: the load writes I alone, the jump pc alone, and the jump's 16-bit sum does not wrap. -/
theorem indexLoadAndJumpWithOffset : Obligations.IndexLoadAndJumpWithOffset := by
  unfold Obligations.IndexLoadAndJumpWithOffset
  intro s nnn
  constructor
  · exact ⟨s.setI (zext16 nnn), rfl, toNat_zext16 nnn, sameBut_setI s _⟩
  · exact ⟨s.setPc (zext16 nnn + zextByte (s.readV 0)), rfl, toNat_zext16_add_zextByte nnn _, sameBut_setPc s _⟩

end Sys2Proof.Machine
end

section
/-! PROOFS. One toggled pixel, and the obligation about it (43_display.md rule R97, rule R98). -/

namespace Sys2Proof.Machine

/-- Coordinates of the same cell read the same pixel. -/
theorem State.getPixel_congr (s : State) {x y x' y' : Nat} (hx : x' % 64 = x % 64) (hy : y' % 32 = y % 32) :
    s.getPixel x' y' = s.getPixel x y := by
  simp [State.getPixel, pixelAt, hx, hy]

theorem togglePixel_snd (x y : Nat) (s : State) : (togglePixel x y s).2 = s.getPixel x y := rfl

theorem togglePixel_dirty (x y : Nat) (s : State) : (togglePixel x y s).1.dirty = true := rfl

theorem sameBut_togglePixel (x y : Nat) (s : State) : SameBut [.display] s (togglePixel x y s).1 :=
  sameBut_display s _ true

theorem getPixel_togglePixel (x y : Nat) (s : State) (px py : Nat) :
    (togglePixel x y s).1.getPixel px py =
      if px % 64 = x % 64 ∧ py % 32 = y % 32 then !s.getPixel px py else s.getPixel px py := by
  have hset : (togglePixel x y s).1.getPixel px py =
      if px % 64 = x % 64 ∧ py % 32 = y % 32 then !s.getPixel x y else s.getPixel px py :=
    pixelAt_pixelSet s.pix x y px py _
  rw [hset]
  refine if_ctx_congr Iff.rfl (fun hcell => ?_) fun _ => rfl
  rw [s.getPixel_congr hcell.1 hcell.2]

theorem getPixel_togglePixel_of_cell {x y px py : Nat} (s : State) (hx : px % 64 = x % 64)
    (hy : py % 32 = y % 32) : (togglePixel x y s).1.getPixel px py = !s.getPixel px py := by
  rw [getPixel_togglePixel, if_pos ⟨hx, hy⟩]

/-- Two toggles of one cell restore every pixel: that cell is negated twice, every other is left alone twice. -/
theorem getPixel_togglePixel_togglePixel {x y x' y' : Nat} (s : State) (hx : x' % 64 = x % 64)
    (hy : y' % 32 = y % 32) (px py : Nat) :
    (togglePixel x' y' (togglePixel x y s).1).1.getPixel px py = s.getPixel px py := by
  rw [getPixel_togglePixel, getPixel_togglePixel, hx, hy]
  split
  · exact Bool.not_not _
  · rfl

/-- The second of two toggles of one cell answers the opposite of the first. -/
theorem togglePixel_togglePixel_snd {x y x' y' : Nat} (s : State) (hx : x' % 64 = x % 64)
    (hy : y' % 32 = y % 32) : (togglePixel x' y' (togglePixel x y s).1).2 = !(togglePixel x y s).2 := by
  rw [togglePixel_snd, togglePixel_snd, getPixel_togglePixel_of_cell s hx hy, s.getPixel_congr hx hy]

/-- Settles O34: by the read of any pixel after a toggle, used once for the flip and twice for the undo. -/
theorem toggleFlipsReportsAndUndoes : Obligations.ToggleFlipsReportsAndUndoes := by
  unfold Obligations.ToggleFlipsReportsAndUndoes
  intro s x y
  exact ⟨togglePixel_snd x y s, togglePixel_dirty x y s, getPixel_togglePixel x y s, sameBut_togglePixel x y s,
    fun _ _ hx hy => ⟨getPixel_togglePixel_togglePixel s hx hy, togglePixel_togglePixel_snd s hx hy⟩⟩

end Sys2Proof.Machine
end

section
/-! PROOFS. isDown, the key writes and the scan for the first key down, the key skips, and the obligations about them
(44_keypad.md rule R104 to rule R109). -/

namespace Sys2Proof.Machine

/-! ### isDown and firstPressed -/

theorem State.isDown_of_lt (s : State) {k : Nat} (h : k < 16) : s.isDown k = some s.key[k] := dif_pos h

theorem State.isDown_of_le (s : State) {k : Nat} (h : 16 ≤ k) : s.isDown k = none := State.isDown_eq_none.2 h

theorem State.isDown_eq_some_iff {s : State} {k : Nat} {b : Bool} :
    s.isDown k = some b ↔ ∃ h : k < 16, s.key[k] = b := by
  constructor
  · intro hdown
    have hk : k < 16 := Nat.lt_of_not_le fun hle => by simp [s.isDown_of_le hle] at hdown
    exact ⟨hk, by simpa [s.isDown_of_lt hk] using hdown⟩
  · rintro ⟨hk, rfl⟩
    exact s.isDown_of_lt hk

/-- Below 16 a key that does not answer "down" answers "up": isDown has no third answer there. -/
theorem State.isDown_ne_true_iff (s : State) {k : Nat} (h : k < 16) :
    s.isDown k ≠ some true ↔ s.isDown k = some false := by
  simp [s.isDown_of_lt h]

theorem State.firstPressed_eq_some_iff {s : State} {k : Nat} :
    s.firstPressed = some k ↔ s.isDown k = some true ∧ k < 16 ∧ ∀ j, j < k → s.isDown j ≠ some true := by
  simp [State.firstPressed, List.find?_range_eq_some]

theorem State.firstPressed_eq_none_iff {s : State} :
    s.firstPressed = none ↔ ∀ k, k < 16 → s.isDown k ≠ some true := by
  simp [State.firstPressed]

/-- Settles O39: the scan of 0 to 15 in ascending order finds the lowest key down, and nothing when each of the 16
fails the test. -/
theorem firstPressedIsLowest : Obligations.FirstPressedIsLowest := by
  unfold Obligations.FirstPressedIsLowest
  intro s
  constructor
  · intro k
    rw [State.firstPressed_eq_some_iff]
    constructor
    · rintro ⟨hdown, hk, hlower⟩
      obtain ⟨_, hkey⟩ := State.isDown_eq_some_iff.1 hdown
      exact ⟨hk, hkey, fun j hj => (s.isDown_ne_true_iff (hj.trans hk)).1 (hlower j hj)⟩
    · rintro ⟨hk, hkey, hlower⟩
      exact ⟨State.isDown_eq_some_iff.2 ⟨hk, hkey⟩, hk,
        fun j hj => (s.isDown_ne_true_iff (hj.trans hk)).2 (hlower j hj)⟩
  · rw [State.firstPressed_eq_none_iff]
    refine forall₂_congr fun k hk => ?_
    simp [s.isDown_of_lt hk]

/-! ### Key skips -/

theorem keySkip_of_lt {s : State} {x : Reg} (want : Bool) (h : (s.readV x).toNat < 16) :
    keySkip x want s = s.skipIf (s.key[(s.readV x).toNat] == want) := by
  simp [keySkip, s.isDown_of_lt h]

theorem keySkip_of_le {s : State} {x : Reg} (want : Bool) (h : 16 ≤ (s.readV x).toNat) :
    keySkip x want s = s.logEvent (.invalidKey (s.readV x)) := by
  simp [keySkip, s.isDown_of_le h]

/-- A key skip on a valid identity completes: pc goes on by 2 exactly when the key's state is the wanted one. -/
theorem completes_of_exec_eq_keySkip_of_lt {i : Instr} {s : State} {x : Reg} {want : Bool}
    (hexec : exec i s = .next (keySkip x want s)) (h : (s.readV x).toNat < 16) :
    Completes i s fun t =>
      t.pc = (if s.key[(s.readV x).toNat] = want then s.pc + 2 else s.pc) ∧ SameBut [.pc] s t := by
  rw [keySkip_of_lt want h] at hexec
  exact ⟨_, hexec, by simp [State.skipIf_eq], sameBut_skipIf s _⟩

/-- A key skip on an invalid identity completes: the identity is logged, and pc stays. -/
theorem completes_of_exec_eq_keySkip_of_le {i : Instr} {s : State} {x : Reg} {want : Bool}
    (hexec : exec i s = .next (keySkip x want s)) (h : 16 ≤ (s.readV x).toNat) :
    Completes i s fun t => t.log = s.log ++ [.invalidKey (s.readV x)] ∧ SameBut [.log] s t := by
  rw [keySkip_of_le want h] at hexec
  exact ⟨_, hexec, rfl, sameBut_logEvent s _⟩

/-- Settles O38: both are the key skip, EX9E on a key that is down and EXA1 on a key that is up. -/
theorem keySkipsTestTheKeypad : Obligations.KeySkipsTestTheKeypad := by
  unfold Obligations.KeySkipsTestTheKeypad
  constructor
  · rintro s x _ hk rfl
    constructor
    · exact completes_of_exec_eq_keySkip_of_lt (want := true) rfl hk
    · have hup := completes_of_exec_eq_keySkip_of_lt (i := .sknp x) (want := false) rfl hk
      simpa only [← Bool.not_eq_true, ite_not] using hup
  · exact fun s x hk => ⟨completes_of_exec_eq_keySkip_of_le (want := true) rfl hk,
      completes_of_exec_eq_keySkip_of_le (want := false) rfl hk⟩

/-! ### Host key transactions -/

theorem State.setKey_of_lt (s : State) {k : Nat} (down : Bool) (h : k < 16) :
    s.setKey k down = some { s with key := s.key.set k down } := dif_pos h

theorem State.setKey_of_le (s : State) {k : Nat} (down : Bool) (h : 16 ≤ k) : s.setKey k down = none :=
  dif_neg (Nat.not_lt.2 h)

/-- A transaction that writes one of the 16 keys succeeds, and does nothing when the key is already so. -/
theorem transact_eq_ok_of_eq_setKey {tr : Transaction} {s : State} {k : Nat} {down : Bool}
    (htr : transact tr s = .next (keyReply k s (s.setKey k down))) (h : k < 16) :
    ∃ t, transact tr s = .next (t, .ok) ∧ t = { s with key := s.key.set k down } ∧ (s.key[k] = down → t = s) := by
  rw [s.setKey_of_lt down h] at htr
  refine ⟨_, htr, rfl, ?_⟩
  rintro rfl
  rw [Vector.set_getElem_self]

theorem transact_eq_invalidKey_of_eq_setKey {tr : Transaction} {s : State} {k : Nat} {down : Bool}
    (htr : transact tr s = .next (keyReply k s (s.setKey k down))) (h : 16 ≤ k) :
    transact tr s = .next (s, .invalidKey k) := by
  rw [htr, s.setKey_of_le down h, keyReply]

theorem transact_isDown_of_lt (s : State) {k : Nat} (h : k < 16) :
    transact (.isDown k) s = .next (s, .keyState s.key[k]) := by
  simp [transact, s.isDown_of_lt h]

theorem transact_isDown_of_le (s : State) {k : Nat} (h : 16 ≤ k) :
    transact (.isDown k) s = .next (s, .invalidKey k) := by
  simp [transact, s.isDown_of_le h]

/-- Settles O40: press and release are one key write, and each transaction by whether the identity is below 16. -/
theorem hostKeyTransactions : Obligations.HostKeyTransactions := by
  unfold Obligations.HostKeyTransactions
  intro s k
  constructor
  · exact fun hk => ⟨transact_eq_ok_of_eq_setKey rfl hk, transact_eq_ok_of_eq_setKey rfl hk,
      transact_isDown_of_lt s hk⟩
  · exact fun hk => ⟨transact_eq_invalidKey_of_eq_setKey (down := true) rfl hk,
      transact_eq_invalidKey_of_eq_setKey (down := false) rfl hk, transact_isDown_of_le s hk⟩

end Sys2Proof.Machine
end

section
/-! SUPPORT. The block transfers of V0 onward (45_fx.md rule R117, rule R118): where a transfer stops, and what it
has moved by then. -/

namespace Sys2Proof.Machine

/-- The offsets below n, cut at one of them. -/
theorem exists_range_eq_append_cons {k n : Nat} (h : k < n) :
    ∃ ks, List.range n = List.range k ++ k :: ks := by
  obtain ⟨m, rfl⟩ := Nat.exists_eq_add_of_lt h
  refine ⟨(List.range m).map (k + 1 + ·), ?_⟩
  rw [Nat.add_right_comm, List.range_add, List.range_succ, List.append_assoc, List.singleton_append]

/-- The first address past both base and the end of memory, as an offset from base. -/
theorem add_memSize_sub (base : Nat) : base + (memSize - base) = max base memSize := by
  omega

/-! ### The store -/

theorem storeRegs_cons_of_le {base j : Nat} (js : List Nat) (s : State) (h : memSize ≤ base + j) :
    storeRegs base (j :: js) s = (s.logEvent (.outOfBounds (base + j)), false) := by
  simp [storeRegs, State.memWrite_eq_none.2 h]

theorem storeRegs_range_complete {base n : Nat} (s : State) (h : n ≤ memSize - base) :
    (storeRegs base (List.range n) s).2 = true :=
  storeRegs_complete base _ s fun j hj => by have := List.mem_range.1 hj; omega

/-- A store that runs past memory stores the registers before its end and logs the first address past it. -/
theorem storeRegs_range_stopped {base n : Nat} (s : State) (h : memSize - base < n) :
    storeRegs base (List.range n) s =
      ((storeRegs base (List.range (memSize - base)) s).1.logEvent (.outOfBounds (max base memSize)), false) := by
  obtain ⟨ks, hsplit⟩ := exists_range_eq_append_cons h
  have hcomplete := storeRegs_range_complete s (le_refl (memSize - base))
  rw [hsplit, storeRegs_append, if_pos hcomplete, storeRegs_cons_of_le _ _ (by omega), add_memSize_sub]

theorem memRead_storeRegs_range {base n : Nat} (s : State) (h : n ≤ memSize - base) (a : Nat) :
    (storeRegs base (List.range n) s).1.memRead a =
      if base ≤ a ∧ a - base < n then some (s.readV (BitVec.ofNat 4 (a - base))) else s.memRead a := by
  have hexist : ∀ j ∈ List.range n, base + j < memSize := fun j hj => by have := List.mem_range.1 hj; omega
  simp only [storeRegs_memRead base _ s List.nodup_range hexist, List.mem_range]

theorem memRead_storeRegs_range_stored {base n : Nat} (s : State) (h : n ≤ memSize - base) {r : Reg}
    (hr : r.toNat < n) : (storeRegs base (List.range n) s).1.memRead (base + r.toNat) = some (s.readV r) := by
  simp [memRead_storeRegs_range s h, hr]

theorem memRead_storeRegs_range_beside {base n : Nat} (s : State) (h : n ≤ memSize - base) {a : Nat}
    (ha : a < base ∨ base + n ≤ a) : (storeRegs base (List.range n) s).1.memRead a = s.memRead a := by
  rw [memRead_storeRegs_range s h, if_neg (by omega)]

theorem sameBut_mem (s : State) (m : List Host.Cell) : SameBut [.mem] s { s with mem := m } := by
  constructor <;> simp [State.readV]

/-- A store that completes writes memory alone: it logs nothing. -/
theorem sameBut_storeRegs_of_complete {base : Nat} {js : List Nat} {s : State}
    (h : (storeRegs base js s).2 = true) : SameBut [.mem] s (storeRegs base js s).1 := by
  obtain ⟨m, l, heq, -, hlog⟩ := storeRegs_shape base js s
  rw [heq, hlog h, List.append_nil]
  exact sameBut_mem s m

/-! ### The load -/

theorem loadRegs_cons_of_le {base j : Nat} (js : List Nat) (s : State) (h : memSize ≤ base + j) :
    loadRegs base (j :: js) s = (s.logEvent (.outOfBounds (base + j)), false) := by
  simp [loadRegs, State.memRead_eq_none.2 h]

theorem loadRegs_range_complete {base n : Nat} (s : State) (h : n ≤ memSize - base) :
    (loadRegs base (List.range n) s).2 = true :=
  loadRegs_complete base _ s fun j hj => by have := List.mem_range.1 hj; omega

/-- A load that runs past memory loads the registers before its end and logs the first address past it. -/
theorem loadRegs_range_stopped {base n : Nat} (s : State) (h : memSize - base < n) :
    loadRegs base (List.range n) s =
      ((loadRegs base (List.range (memSize - base)) s).1.logEvent (.outOfBounds (max base memSize)), false) := by
  obtain ⟨ks, hsplit⟩ := exists_range_eq_append_cons h
  have hcomplete := loadRegs_range_complete s (le_refl (memSize - base))
  rw [hsplit, loadRegs_append, if_pos hcomplete, loadRegs_cons_of_le _ _ (by omega), add_memSize_sub]

theorem readV_loadRegs_range {base n : Nat} (s : State) (h : n ≤ memSize - base) (h16 : n ≤ 16)
    (r : Reg) : some ((loadRegs base (List.range n) s).1.readV r) =
      if r.toNat < n then s.memRead (base + r.toNat) else some (s.readV r) := by
  have hexist : ∀ j ∈ List.range n, base + j < memSize := fun j hj => by have := List.mem_range.1 hj; omega
  have hname : ∀ j ∈ List.range n, j < 16 := fun j hj => (List.mem_range.1 hj).trans_le h16
  simp only [loadRegs_readV base _ s List.nodup_range hexist hname, List.mem_range]

theorem readV_loadRegs_range_loaded {base n : Nat} (s : State) (h : n ≤ memSize - base) (h16 : n ≤ 16)
    {r : Reg} (hr : r.toNat < n) :
    s.memRead (base + r.toNat) = some ((loadRegs base (List.range n) s).1.readV r) := by
  rw [readV_loadRegs_range s h h16, if_pos hr]

theorem readV_loadRegs_range_kept {base n : Nat} (s : State) (h : n ≤ memSize - base) (h16 : n ≤ 16)
    {r : Reg} (hr : n ≤ r.toNat) : (loadRegs base (List.range n) s).1.readV r = s.readV r := by
  simpa [Nat.not_lt.2 hr] using readV_loadRegs_range s h h16 r

theorem sameBut_v (s : State) (v : Vector Byte 16) : SameBut [.v] s { s with v := v } := by
  constructor <;> simp [State.memRead]

/-- A load that completes writes the V registers alone: it logs nothing. -/
theorem sameBut_loadRegs_of_complete {base : Nat} {js : List Nat} {s : State}
    (h : (loadRegs base js s).2 = true) : SameBut [.v] s (loadRegs base js s).1 := by
  obtain ⟨v, l, heq, hlog⟩ := loadRegs_shape base js s
  rw [heq, hlog h, List.append_nil]
  exact sameBut_v s v

end Sys2Proof.Machine
end

section
/-! PROOFS. Timer copies, the key wait, the glyph address and the block transfers, and the obligations about them
(45_fx.md rule R110 to rule R113, rule R115, rule R117, rule R118). -/

namespace Sys2Proof.Machine

/-! ### Timer copies -/

/-- Settles O41: FX07 writes V[x] alone, FX15 and FX18 one timer each. -/
theorem timerRegisterCopies : Obligations.TimerRegisterCopies := by
  unfold Obligations.TimerRegisterCopies
  exact fun s x => ⟨completes_of_exec_eq_setV rfl, ⟨_, rfl, rfl, sameBut_dt s _⟩, _, rfl, rfl, sameBut_st s _⟩

/-! ### The key wait -/

theorem exec_ldVxK_of_none {s : State} (x : Reg) (h : s.firstPressed = none) :
    exec (.ldVxK x) s = .next (s.setPc (s.pc - 2)) := by
  simp [exec, execLdVxK, h]

theorem exec_ldVxK_of_some {s : State} {k : Nat} (x : Reg) (h : s.firstPressed = some k) :
    exec (.ldVxK x) s = .next (s.setV x (BitVec.ofNat 8 k)) := by
  simp [exec, execLdVxK, h]

/-- Settles O42: by whether firstPressed finds a key; the key it finds is below 16, so V[x] holds it whole. -/
theorem waitForKeyRewindsOrLoads : Obligations.WaitForKeyRewindsOrLoads := by
  unfold Obligations.WaitForKeyRewindsOrLoads
  constructor
  · intro s x hup
    have hnone : s.firstPressed = none :=
      State.firstPressed_eq_none_iff.2 fun k hk => (s.isDown_ne_true_iff hk).2 (hup k hk)
    exact ⟨_, exec_ldVxK_of_none x hnone, rfl, sameBut_setPc s _⟩
  · intro s x k hdown hlower
    obtain ⟨hk, -⟩ := State.isDown_eq_some_iff.1 hdown
    have hfirst : s.firstPressed = some k :=
      State.firstPressed_eq_some_iff.2 ⟨hdown, hk, fun j hj => by simp [hlower j hj]⟩
    obtain ⟨t, hexec, hx, hframe⟩ := completes_of_exec_eq_setV (exec_ldVxK_of_some x hfirst)
    have hkey : (t.readV x).toNat = k := by
      rw [hx, BitVec.toNat_ofNat, Nat.mod_eq_of_lt (by omega)]
    exact ⟨t, hexec, hkey, hframe⟩

/-! ### The glyph address -/

/-- The glyph of a nibble begins within the 80 bytes at FONT_BASE, so its address does not wrap. -/
theorem toNat_glyphAddress {c : Config} (b : Byte) (h : c.fontBase + 80 ≤ 0x200) :
    (glyphAddress c b).toNat = c.fontBase + b.toNat % 16 * 5 := by
  have hnibble : (b &&& 0xF).toNat = b.toNat % 16 := Nat.and_two_pow_sub_one_eq_mod b.toNat 4
  rw [glyphAddress, hnibble, BitVec.toNat_ofNat, Nat.mod_eq_of_lt (by omega)]

/-- Settles O44: the glyph address goes to I, and I alone is written. -/
theorem glyphAddressOfLowNibble : Obligations.GlyphAddressOfLowNibble := by
  unfold Obligations.GlyphAddressOfLowNibble
  exact fun s x hfont => ⟨_, rfl, toNat_glyphAddress _ hfont, sameBut_setI s _⟩

/-! ### The block transfers -/

/-- I after a whole transfer: its last byte exists, so the 16-bit sum does not wrap. -/
theorem toNat_add_ofNat_succ {i : Word} {x : Reg} (h : i.toNat + x.toNat < 4096) :
    (i + BitVec.ofNat 16 (x.toNat + 1)).toNat = i.toNat + x.toNat + 1 := by
  rw [BitVec.toNat_add, BitVec.toNat_ofNat]
  omega

theorem exec_storeVx_of_fits {s : State} {x : Reg} (h : s.i.toNat + x.toNat < 4096) :
    exec (.storeVx x) s =
      .next ((storeRegs s.i.toNat (List.range (x.toNat + 1)) s).1.setI (s.i + BitVec.ofNat 16 (x.toNat + 1))) := by
  have hn : x.toNat + 1 ≤ 4096 - s.i.toNat := by omega
  have hcomplete := storeRegs_range_complete s hn
  have hi := (sameBut_storeRegs s.i.toNat (List.range (x.toNat + 1)) s).i (by simp)
  simp [exec, execStoreVx, advanceIndex, hcomplete, hi]

theorem exec_storeVx_of_stops {s : State} {x : Reg} (h : 4096 ≤ s.i.toNat + x.toNat) :
    exec (.storeVx x) s =
      .next ((storeRegs s.i.toNat (List.range (4096 - s.i.toNat)) s).1.logEvent
        (.outOfBounds (max s.i.toNat 4096))) := by
  have hn : 4096 - s.i.toNat < x.toNat + 1 := by omega
  have hstopped := storeRegs_range_stopped s hn
  simp [exec, execStoreVx, advanceIndex, hstopped, memSize]

theorem exec_loadVx_of_fits {s : State} {x : Reg} (h : s.i.toNat + x.toNat < 4096) :
    exec (.loadVx x) s =
      .next ((loadRegs s.i.toNat (List.range (x.toNat + 1)) s).1.setI (s.i + BitVec.ofNat 16 (x.toNat + 1))) := by
  have hn : x.toNat + 1 ≤ 4096 - s.i.toNat := by omega
  have hcomplete := loadRegs_range_complete s hn
  have hi := (sameBut_loadRegs s.i.toNat (List.range (x.toNat + 1)) s).i (by simp)
  simp [exec, execLoadVx, advanceIndex, hcomplete, hi]

theorem exec_loadVx_of_stops {s : State} {x : Reg} (h : 4096 ≤ s.i.toNat + x.toNat) :
    exec (.loadVx x) s =
      .next ((loadRegs s.i.toNat (List.range (4096 - s.i.toNat)) s).1.logEvent
        (.outOfBounds (max s.i.toNat 4096))) := by
  have hn : 4096 - s.i.toNat < x.toNat + 1 := by omega
  have hstopped := loadRegs_range_stopped s hn
  simp [exec, execLoadVx, advanceIndex, hstopped, memSize]

/-- Settles O46: by whether the last byte exists; the bytes by the reads after x + 1 stores, or after the 4096 - I
stores before the end of memory. -/
theorem blockStoreStopsAtTheEnd : Obligations.BlockStoreStopsAtTheEnd := by
  unfold Obligations.BlockStoreStopsAtTheEnd
  intro s x
  rcases Nat.lt_or_ge (s.i.toNat + x.toNat) 4096 with hfits | hstops
  · have hn : x.toNat + 1 ≤ 4096 - s.i.toNat := by omega
    have hframe := (sameBut_storeRegs_of_complete (storeRegs_range_complete s hn)).append
      (sameBut_setI _ (s.i + BitVec.ofNat 16 (x.toNat + 1)))
    exact ⟨_, exec_storeVx_of_fits hfits,
      fun r hr _ => memRead_storeRegs_range_stored s hn (by omega),
      fun a ha => memRead_storeRegs_range_beside s hn (by omega),
      fun _ => ⟨toNat_add_ofNat_succ hfits, hframe⟩,
      fun hstops => absurd hfits hstops.not_gt⟩
  · have hn : 4096 - s.i.toNat ≤ memSize - s.i.toNat := le_rfl
    have hstored := sameBut_storeRegs_of_complete (storeRegs_range_complete s hn)
    have hlog := hstored.log (by simp)
    exact ⟨_, exec_storeVx_of_stops hstops,
      fun r _ hr => memRead_storeRegs_range_stored s hn (by omega),
      fun a ha => memRead_storeRegs_range_beside s hn (by omega),
      fun hfits => absurd hfits hstops.not_gt,
      fun _ => ⟨by rw [State.logEvent_log, hlog], hstored.append (sameBut_logEvent _ _)⟩⟩

/-- Settles O47: by whether the last byte exists; the registers by their values after x + 1 loads, or after the
4096 - I loads before the end of memory. -/
theorem blockLoadStopsAtTheEnd : Obligations.BlockLoadStopsAtTheEnd := by
  unfold Obligations.BlockLoadStopsAtTheEnd
  intro s x
  rcases Nat.lt_or_ge (s.i.toNat + x.toNat) 4096 with hfits | hstops
  · have hn : x.toNat + 1 ≤ 4096 - s.i.toNat := by omega
    have h16 : x.toNat + 1 ≤ 16 := x.isLt
    have hframe := (sameBut_loadRegs_of_complete (loadRegs_range_complete s hn)).append
      (sameBut_setI _ (s.i + BitVec.ofNat 16 (x.toNat + 1)))
    exact ⟨_, exec_loadVx_of_fits hfits,
      fun r hr _ => readV_loadRegs_range_loaded s hn h16 (by omega),
      fun r hr => readV_loadRegs_range_kept s hn h16 (by omega),
      fun _ => ⟨toNat_add_ofNat_succ hfits, hframe⟩,
      fun hstops => absurd hfits hstops.not_gt⟩
  · have hn : 4096 - s.i.toNat ≤ memSize - s.i.toNat := le_rfl
    have h16 : 4096 - s.i.toNat ≤ 16 := by omega
    have hloaded := sameBut_loadRegs_of_complete (loadRegs_range_complete s hn)
    have hlog := hloaded.log (by simp)
    exact ⟨_, exec_loadVx_of_stops hstops,
      fun r _ hr => readV_loadRegs_range_loaded s hn h16 (by omega),
      fun r hr => readV_loadRegs_range_kept s hn h16 (by omega),
      fun hfits => absurd hfits hstops.not_gt,
      fun _ => ⟨by rw [State.logEvent_log, hlog], hloaded.append (sameBut_logEvent _ _)⟩⟩

end Sys2Proof.Machine
end

section
/-! PROOFS. The decoder and the encoder are inverse to each other, the words the decoder names UNIMPLEMENTED, and the
obligations about them (30_encoding.md rule R59 to rule R67). -/

namespace Sys2Proof

/-! ### Decoding an encoded word -/

/-- Every well-formed instruction is read back from its format: its high nibble, and the secondary key where its
family has one, name its row. -/
theorem opcodeMap_encode {i : Instr} (h : WellFormed i) : opcodeMap (encode i) = some i := by
  cases i with
  | cls | ret => decide
  | jp | call | ldI | jpV0 | seImm | sneImm | ldImm | addImm | rnd | seReg | sneReg => simp [encode, opcodeMap]
  | drw x y n =>
    have hn : n % 16 = n := Nat.mod_eq_of_lt (Nat.lt_succ_of_le (of_decide_eq_true h))
    simp [encode, opcodeMap, hn]
  | ldReg | orReg | andReg | xorReg | addReg | subReg | shr | subn | shl => simp [encode, opcodeMap, decodeOp8]
  | skp | sknp => simp [encode, opcodeMap, decodeOpE]
  | ldVxDt | ldVxK | ldDtVx | ldStVx | addIVx | ldFVx | ldBVx | storeVx | loadVx =>
    simp [encode, opcodeMap, decodeOpF]

theorem decode_eq_instr_iff {w : Word} {i : Instr} : decode w = .instr i ↔ opcodeMap w = some i := by
  unfold decode
  split <;> simp [*]

theorem decode_eq_unimplemented_iff {w u : Word} : decode w = .unimplemented u ↔ opcodeMap w = none ∧ u = w := by
  unfold decode
  split <;> simp [*, eq_comm]

theorem decode_encode {i : Instr} (h : WellFormed i) : decode (encode i) = .instr i :=
  decode_eq_instr_iff.2 (opcodeMap_encode h)

/-- Settles O2: the opcode map reads back every field of every format; the two bytes of a word make up the word. -/
theorem decodeEncodeRoundTrip : Obligations.DecodeEncodeRoundTrip := by
  unfold Obligations.DecodeEncodeRoundTrip
  intro i h
  exact ⟨decode_encode h, by rw [decodeBytes, wordOfBytes_high_low, decode_encode h]⟩

/-! ### Encoding a decoded word -/

/-- A word is put together again from the fields of each format. -/
theorem formatFA_fields (w : Word) : formatFA (opField w) (nnnField w) = w := by
  apply BitVec.eq_of_toNat_eq
  rw [formatFA_toNat, opField_toNat, nnnField_toNat]
  omega

theorem formatFI_fields (w : Word) : formatFI (opField w) (xField w) (nnField w) = w := by
  apply BitVec.eq_of_toNat_eq
  rw [formatFI_toNat, opField_toNat, xField_toNat, nnField_toNat]
  omega

theorem formatFR_fields (w : Word) : formatFR (opField w) (xField w) (yField w) (nField w) = w := by
  apply BitVec.eq_of_toNat_eq
  rw [formatFR_toNat, opField_toNat, xField_toNat, yField_toNat, nField_toNat]
  omega

theorem encode_of_decodeOp0 {w : Word} {i : Instr} (h : decodeOp0 w = some i) : WellFormed i ∧ encode i = w := by
  unfold decodeOp0 at h
  split at h
  · next hw => cases h; exact ⟨rfl, hw.symm⟩
  · split at h
    · next hw => cases h; exact ⟨rfl, hw.symm⟩
    · cases h

theorem encode_of_decodeOp8 {x y : Reg} {n : Nat} {i : Instr} (h : decodeOp8 x y n = some i) :
    WellFormed i ∧ encode i = formatFR 0x8 x y (BitVec.ofNat 4 n) := by
  unfold decodeOp8 at h
  split at h <;> cases h <;> exact ⟨rfl, rfl⟩

theorem encode_of_decodeOpE {x : Reg} {nn : Nat} {i : Instr} (h : decodeOpE x nn = some i) :
    WellFormed i ∧ encode i = formatFI 0xE x (BitVec.ofNat 8 nn) := by
  unfold decodeOpE at h
  split at h <;> cases h <;> exact ⟨rfl, rfl⟩

theorem encode_of_decodeOpF {x : Reg} {nn : Nat} {i : Instr} (h : decodeOpF x nn = some i) :
    WellFormed i ∧ encode i = formatFI 0xF x (BitVec.ofNat 8 nn) := by
  unfold decodeOpF at h
  split at h <;> cases h <;> exact ⟨rfl, rfl⟩

/-- The converse of `opcodeMap_encode`: under each high nibble the word is rebuilt from its fields in that
nibble's format. (Case h_k of the split is high nibble k - 1; case h_17 cannot happen.) -/
theorem encode_of_opcodeMap {w : Word} {i : Instr} (h : opcodeMap w = some i) : WellFormed i ∧ encode i = w := by
  have hop : opField w = BitVec.ofNat 4 (opField w).toNat := by simp
  have hFA := formatFA_fields w
  have hFI := formatFI_fields w
  have hFR := formatFR_fields w
  unfold opcodeMap at h
  split at h
  case h_17 => cases h
  all_goals rename_i hk; rw [hk] at hop; rw [hop] at hFA hFI hFR
  case h_1 => exact encode_of_decodeOp0 h
  case h_2 | h_3 | h_11 | h_12 => cases h; exact ⟨rfl, hFA⟩
  case h_4 | h_5 | h_7 | h_8 | h_13 => cases h; exact ⟨rfl, hFI⟩
  case h_6 | h_10 =>
    split at h
    · next hn => cases h; exact ⟨rfl, by rwa [hn] at hFR⟩
    · cases h
  case h_9 =>
    obtain ⟨hwf, henc⟩ := encode_of_decodeOp8 h
    exact ⟨hwf, by simpa [henc] using hFR⟩
  case h_14 =>
    cases h
    exact ⟨decide_eq_true (Nat.le_of_lt_succ (nField w).isLt), by simpa [encode] using hFR⟩
  case h_15 =>
    obtain ⟨hwf, henc⟩ := encode_of_decodeOpE h
    exact ⟨hwf, by simpa [henc] using hFI⟩
  case h_16 =>
    obtain ⟨hwf, henc⟩ := encode_of_decodeOpF h
    exact ⟨hwf, by simpa [henc] using hFI⟩

/-- Settles O3: from the word rebuilt out of its fields, format by format. -/
theorem encodeDecodeRoundTrip : Obligations.EncodeDecodeRoundTrip := by
  unfold Obligations.EncodeDecodeRoundTrip
  exact fun w i h => encode_of_opcodeMap (decode_eq_instr_iff.1 h)

/-! ### The words that are no instruction -/

theorem decodeOp0_eq_none_iff {w : Word} : decodeOp0 w = none ↔ w.toNat ≠ 0x00E0 ∧ w.toNat ≠ 0x00EE := by
  have hcls : w = 0x00E0 ↔ w.toNat = 0x00E0 := BitVec.toNat_inj.symm
  have hret : w = 0x00EE ↔ w.toNat = 0x00EE := BitVec.toNat_inj.symm
  rw [Ne, Ne, ← hcls, ← hret]
  unfold decodeOp0
  split_ifs with h1 h2
  · simp [h1]
  · simp [h2]
  · exact iff_of_true rfl ⟨h1, h2⟩

theorem decodeOp8_eq_none_iff {x y : Reg} {n : Nat} (h : n < 16) :
    decodeOp8 x y n = none ↔ n ∈ [0x8, 0x9, 0xA, 0xB, 0xC, 0xD, 0xF] := by
  unfold decodeOp8
  split
  case h_10 => simp_all; omega
  all_goals simp

theorem decodeOpE_eq_none_iff {x : Reg} {nn : Nat} : decodeOpE x nn = none ↔ nn ≠ 0x9E ∧ nn ≠ 0xA1 := by
  unfold decodeOpE
  split <;> simp_all

theorem decodeOpF_eq_none_iff {x : Reg} {nn : Nat} :
    decodeOpF x nn = none ↔ nn ∉ [0x07, 0x0A, 0x15, 0x18, 0x1E, 0x29, 0x33, 0x55, 0x65] := by
  unfold decodeOpF
  split <;> simp_all

theorem nField_eq_zero_iff {w : Word} : nField w = 0#4 ↔ w.toNat % 16 = 0 := by
  rw [← nField_toNat]
  exact BitVec.toNat_inj.symm

/-- The opcode map has no instruction for a word exactly when it is in the list of rule R64. (Case h_k of the split
is high nibble k - 1; the nibbles left for `all_goals` always name an instruction.) -/
theorem opcodeMap_eq_none_iff {w : Word} :
    opcodeMap w = none ↔
      (w.toNat / 4096 = 0 ∧ w.toNat ≠ 0x00E0 ∧ w.toNat ≠ 0x00EE) ∨
        ((w.toNat / 4096 = 5 ∨ w.toNat / 4096 = 9) ∧ w.toNat % 16 ≠ 0) ∨
        (w.toNat / 4096 = 8 ∧ w.toNat % 16 ∈ [0x8, 0x9, 0xA, 0xB, 0xC, 0xD, 0xF]) ∨
        (w.toNat / 4096 = 0xE ∧ w.toNat % 256 ≠ 0x9E ∧ w.toNat % 256 ≠ 0xA1) ∨
        (w.toNat / 4096 = 0xF ∧
          w.toNat % 256 ∉ [0x07, 0x0A, 0x15, 0x18, 0x1E, 0x29, 0x33, 0x55, 0x65]) := by
  have hlt : w.toNat / 4096 < 16 := by omega
  have hn : w.toNat % 16 < 16 := Nat.mod_lt _ (by decide)
  unfold opcodeMap
  rw [opField_toNat]
  split <;> rename_i hop
  case h_1 => simp [hop, decodeOp0_eq_none_iff]
  case h_6 | h_10 => simp [hop, nField_eq_zero_iff]
  case h_9 => rw [nField_toNat, decodeOp8_eq_none_iff hn]; simp [hop]
  case h_15 => rw [nnField_toNat, decodeOpE_eq_none_iff]; simp [hop]
  case h_16 => rw [nnField_toNat, decodeOpF_eq_none_iff]; simp [hop]
  case h_17 => simp only [imp_false] at *; omega
  all_goals simp [hop]

/-- Settles O4: by the opcode map, whose failures are the list. -/
theorem unimplementedWordsExactly : Obligations.UnimplementedWordsExactly := by
  unfold Obligations.UnimplementedWordsExactly
  intro w
  rw [← opcodeMap_eq_none_iff]
  exact ⟨⟨fun ⟨_, h⟩ => (decode_eq_unimplemented_iff.1 h).1,
      fun h => ⟨w, decode_eq_unimplemented_iff.2 ⟨h, rfl⟩⟩⟩,
    fun _ h => (decode_eq_unimplemented_iff.1 h).2⟩

/-- Settles O1: each word is read by computation. -/
theorem sampleWordsDecode : Obligations.SampleWordsDecode := by
  unfold Obligations.SampleWordsDecode
  decide

end Sys2Proof
end

section
/-! SUPPORT. What a step does in each of its four cases, and what a transaction can do (30_encoding.md rule R56 to
rule R58, rule R64; 60_exceptions.md rule R139). -/

namespace Sys2Proof.Machine

/-! ### The step, case by case -/

theorem step_of_fault {s : State} {f : Fault} (h : s.fault = some f) : step s = .fault f := by
  simp [step, h]

theorem step_of_fetch_none {s : State} (hf : s.fault = none) (hw : fetchWord s = none) :
    step s = .next (takeFetchFault s) := by
  simp [step, hf, hw]

theorem step_of_instr {s : State} {w : Word} {i : Instr} (hf : s.fault = none) (hw : fetchWord s = some w)
    (hi : decode w = .instr i) : step s = exec i (preIncrement s) := by
  simp [step, hf, hw, hi]

theorem step_of_unimplemented {s : State} {w u : Word} (hf : s.fault = none) (hw : fetchWord s = some w)
    (hu : decode w = .unimplemented u) : step s = .next ((preIncrement s).logEvent (.unimplemented u)) := by
  simp [step, hf, hw, hu, execUnimplemented]

theorem fetchWord_of_memRead {s : State} {hi lo : Byte} (hhi : s.memRead s.pc.toNat = some hi)
    (hlo : s.memRead (s.pc.toNat + 1) = some lo) : fetchWord s = some (wordOfBytes hi lo) := by
  simp [fetchWord, hhi, hlo]

theorem wordOfBytes_eq_ofNat (hi lo : Byte) : wordOfBytes hi lo = BitVec.ofNat 16 (hi.toNat * 256 + lo.toNat) := by
  rw [← wordOfBytes_toNat, BitVec.ofNat_toNat, BitVec.setWidth_eq]

/-- The fetch reads pc, the configuration and memory alone. -/
theorem fetchWord_congr {s t : State} (hpc : t.pc = s.pc) (hcfg : t.cfg = s.cfg) (hmem : t.mem = s.mem) :
    fetchWord t = fetchWord s := by
  simp only [fetchWord, hpc, State.memRead_congr s t _ hcfg hmem]

/-- A state without a fault has a step, whatever it fetches. -/
theorem exists_step_of_no_fault {s : State} (hf : s.fault = none) : ∃ t, step s = .next t := by
  cases hw : fetchWord s with
  | none => exact ⟨_, step_of_fetch_none hf hw⟩
  | some w =>
    cases hd : decode w with
    | unimplemented u => exact ⟨_, step_of_unimplemented hf hw hd⟩
    | instr i =>
      obtain ⟨t, ht, -⟩ := exec_next_sameBut i (preIncrement s)
      exact ⟨t, (step_of_instr hf hw hd).trans ht⟩

theorem fault_of_step_eq_fault {s : State} {f : Fault} (h : step s = .fault f) : s.fault = some f := by
  cases hf : s.fault with
  | none =>
    obtain ⟨t, ht⟩ := exists_step_of_no_fault hf
    cases h.symm.trans ht
  | some g =>
    rw [step_of_fault hf] at h
    cases h
    rfl

/-- A step with a fetch in bounds ends without a fault and with the started flag set: no instruction writes them. -/
theorem step_of_fetch_in {s t : State} (h : step s = .next t) (hpc : s.pc.toNat + 1 < memSize) :
    t.fault = none ∧ t.started = true := by
  obtain ⟨hf, ⟨hw, -⟩ | ⟨w, i, -, -, hexec⟩ | ⟨w, u, -, -, rfl⟩⟩ := step_cases h
  · exact absurd (fetchWord_eq_none.1 hw) hpc.not_ge
  · have hframe := exec_sameBut hexec
    exact ⟨hframe.fault.trans hf, hframe.started⟩
  · exact ⟨hf, rfl⟩

theorem step_of_fetch_out {s t : State} (h : step s = .next t) (hpc : memSize ≤ s.pc.toNat + 1) :
    t = takeFetchFault s := by
  obtain ⟨hf, -⟩ := step_cases h
  rw [step_of_fetch_none hf (fetchWord_eq_none.2 hpc)] at h
  cases h
  rfl

/-! ### Transactions -/

theorem transact_loadProgram_of_started {bytes : List Byte} {s : State} (hs : s.started = true) :
    transact (.loadProgram bytes) s = .refused .loadAfterFirstStep := by
  simp [transact, hs]

/-- A load that succeeds fits, and copies the program to 0x200. -/
theorem loadProgram_cases {bytes : List Byte} {s t : State} (h : loadProgram bytes s = some t) :
    bytes.length ≤ memSize - progBase ∧ t = copyBytes progBase bytes s := by
  unfold loadProgram at h
  split at h
  · cases h
  · next hfit => exact ⟨Nat.le_of_not_lt hfit, (Option.some.inj h).symm⟩

/-- A load writes memory alone, and keeps it canonical. -/
theorem transact_loadProgram_shape {bytes : List Byte} {s t : State} {r : Reply}
    (h : transact (.loadProgram bytes) s = .next (t, r)) :
    ∃ m, t = { s with mem := m } ∧ (Memory.wf s.cfg s.mem = true → Memory.wf s.cfg m = true) := by
  rcases Bool.eq_false_or_eq_true s.started with hs | hs
  · rw [transact_loadProgram_of_started hs] at h
    cases h
  · cases hl : loadProgram bytes s with
    | none =>
      rw [transact_loadProgram_of_none hs hl] at h
      cases h
      exact ⟨s.mem, rfl, id⟩
    | some u =>
      rw [transact_loadProgram_of_some hs hl] at h
      cases h
      obtain ⟨-, rfl⟩ := loadProgram_cases hl
      exact copyBytes_shape progBase bytes s

theorem keyReply_setKey_shape (k : Nat) (s : State) (down : Bool) :
    ∃ key, (keyReply k s (s.setKey k down)).1 = { s with key := key } := by
  rcases Nat.lt_or_ge k 16 with hk | hk
  · exact ⟨_, by rw [s.setKey_of_lt down hk]; rfl⟩
  · exact ⟨s.key, by rw [s.setKey_of_le down hk]; rfl⟩

theorem transact_isDown_shape {k : Nat} {s t : State} {r : Reply} (h : transact (.isDown k) s = .next (t, r)) :
    t = s := by
  rcases Nat.lt_or_ge k 16 with hk | hk
  · rw [transact_isDown_of_lt s hk] at h
    cases h
    rfl
  · rw [transact_isDown_of_le s hk] at h
    cases h
    rfl

theorem transact_step_cases {s t : State} {r : Reply} (h : transact .step s = .next (t, r)) : step s = .next t := by
  cases hstep : step s with
  | next u => simp only [transact, hstep] at h; cases h; rfl
  | fault f => simp [transact, hstep] at h
  | refused f => simp [transact, hstep] at h

/-- Every way a transaction answers a next state: a step, a reset, a tick, a load, which writes memory alone, or an
action on the keypad or the display, which writes the keys and the dirty flag alone. -/
theorem transact_cases {tr : Transaction} {s t : State} {r : Reply} (h : transact tr s = .next (t, r)) :
    (tr = .step ∧ step s = .next t) ∨ (tr = .reset ∧ t = resetAgain s) ∨ (∃ e, t = (tick e s).1) ∨
      (∃ m, t = { s with mem := m } ∧ (Memory.wf s.cfg s.mem = true → Memory.wf s.cfg m = true)) ∨
      ∃ key dirty, t = { s with key := key, dirty := dirty } := by
  cases tr with
  | step => exact .inl ⟨rfl, transact_step_cases h⟩
  | reset => cases h; exact .inr (.inl ⟨rfl, rfl⟩)
  | tick e => cases h; exact .inr (.inr (.inl ⟨e, rfl⟩))
  | loadProgram bytes => exact .inr (.inr (.inr (.inl (transact_loadProgram_shape h))))
  | press k | release k =>
    obtain ⟨key, hkey⟩ := keyReply_setKey_shape k s _
    rw [show keyReply k s (s.setKey k _) = (t, r) from Host.Outcome.next.inj h] at hkey
    exact .inr (.inr (.inr (.inr ⟨key, s.dirty, hkey⟩)))
  | isDown k =>
    obtain rfl := transact_isDown_shape h
    exact .inr (.inr (.inr (.inr ⟨t.key, t.dirty, rfl⟩)))
  | consumeDirty | snapshot => cases h; exact .inr (.inr (.inr (.inr ⟨_, _, rfl⟩)))

end Sys2Proof.Machine
end

section
/-! PROOFS. What an instruction does to pc, to the call stack and to the form of memory, the invariant of the machine,
and the obligations about them (10_state.md rule R20 to rule R25, rule R27, rule R37; 60_exceptions.md rule R139). -/

namespace Sys2Proof.Machine

/-! ### What an instruction does to pc -/

/-- A skip leaves pc or adds 2. -/
theorem skipIf_pc_cases (s : State) (c : Bool) : (s.skipIf c).pc = s.pc ∨ (s.skipIf c).pc = s.pc + 2 := by
  cases c
  · exact .inl rfl
  · exact .inr rfl

theorem keySkip_pc_cases (x : Reg) (want : Bool) (s : State) :
    (keySkip x want s).pc = s.pc ∨ (keySkip x want s).pc = s.pc + 2 := by
  rcases Nat.lt_or_ge (s.readV x).toNat 16 with h | h
  · rw [keySkip_of_lt want h]
    exact skipIf_pc_cases s _
  · rw [keySkip_of_le want h]
    exact .inl rfl

theorem exec_ret_of_pop {s : State} (h : 0 < s.sp ∧ s.sp ≤ 16) :
    exec .ret s = .next (({ s with sp := s.sp - 1 } : State).setPc (s.stack[s.sp - 1]'(by omega))) := by
  simp only [exec, execRet, s.stackPop_of_pos h]

theorem exec_ret_of_underflow {s : State} (h : s.sp = 0 ∨ 16 < s.sp) :
    exec .ret s = .next (s.logEvent (.stackUnderflow s.instrAddr)) := by
  simp only [exec, execRet, State.stackPop_eq_none.2 h]

/-- Everything RET can do: log an underflow, or pop pc. -/
theorem exec_ret_cases {s t : State} (h : exec .ret s = .next t) :
    t = s.logEvent (.stackUnderflow s.instrAddr) ∨
      ∃ (k : Nat) (hk : k < 16), s.sp = k + 1 ∧ t = { s with sp := k, pc := s.stack[k] } := by
  by_cases hsp : 0 < s.sp ∧ s.sp ≤ 16
  · rw [exec_ret_of_pop hsp] at h
    cases h
    exact .inr ⟨s.sp - 1, by omega, by omega, rfl⟩
  · rw [exec_ret_of_underflow (by omega)] at h
    cases h
    exact .inl rfl

/-- Everything CALL can do: log an overflow, or push pc and jump. -/
theorem exec_call_cases {nnn : Addr12} {s t : State} (h : exec (.call nnn) s = .next t) :
    t = s.logEvent (.stackOverflow s.instrAddr) ∨
      ∃ hsp : s.sp < 16, t = { s with stack := s.stack.set s.sp s.pc hsp, sp := s.sp + 1, pc := zext16 nnn } := by
  rcases Nat.lt_or_ge s.sp 16 with hsp | hsp
  · rw [exec_call_of_room nnn hsp] at h
    cases h
    exact .inr ⟨hsp, rfl⟩
  · rw [exec_call_of_full nnn hsp] at h
    cases h
    exact .inl rfl

/-- Everything FX0A can do: go back to itself, or load V[x]. -/
theorem exec_ldVxK_cases {x : Reg} {s t : State} (h : exec (.ldVxK x) s = .next t) :
    t = s.setPc (s.pc - 2) ∨ ∃ b, t = s.setV x b := by
  cases hk : s.firstPressed with
  | none =>
    rw [exec_ldVxK_of_none x hk] at h
    cases h
    exact .inl rfl
  | some k =>
    rw [exec_ldVxK_of_some x hk] at h
    cases h
    exact .inr ⟨_, rfl⟩

/-- Settles O16: the frames of the operations, put together instruction by instruction. -/
theorem instructionWriteSets : Obligations.InstructionWriteSets := by
  unfold Obligations.InstructionWriteSets
  exact fun i s t h => exec_sameBut h

/-- Settles O19: instruction by instruction; those that do not write pc by their frame. -/
theorem pcChangesOnlyAsListed : Obligations.PcChangesOnlyAsListed := by
  unfold Obligations.PcChangesOnlyAsListed
  intro i s t h
  cases i with
  | ret =>
    rcases exec_ret_cases h with rfl | ⟨k, hk, hsp, rfl⟩
    · exact .inl rfl
    · exact .inr (.inr (.inr (.inr (.inl ⟨rfl, k, hk, hsp, rfl⟩))))
  | jp nnn => cases h; exact .inr (.inr (.inl ⟨nnn, .inl rfl, toNat_zext16 nnn⟩))
  | call nnn =>
    rcases exec_call_cases h with rfl | ⟨hsp, rfl⟩
    · exact .inl rfl
    · exact .inr (.inr (.inl ⟨nnn, .inr rfl, toNat_zext16 nnn⟩))
  | seImm x nn | sneImm x nn =>
    cases h
    exact (skipIf_pc_cases s _).imp_right fun hpc => .inl ⟨hpc, .inl ⟨x, nn, by simp⟩⟩
  | seReg x y | sneReg x y =>
    cases h
    exact (skipIf_pc_cases s _).imp_right fun hpc => .inl ⟨hpc, .inr (.inl ⟨x, y, by simp⟩)⟩
  | skp x | sknp x =>
    cases h
    exact (keySkip_pc_cases x _ s).imp_right fun hpc => .inl ⟨hpc, .inr (.inr ⟨x, by simp⟩)⟩
  | jpV0 nnn =>
    cases h
    exact .inr (.inr (.inr (.inl ⟨nnn, rfl, toNat_zext16_add_zextByte nnn _⟩)))
  | ldVxK x =>
    rcases exec_ldVxK_cases h with rfl | ⟨b, rfl⟩
    · exact .inr (.inr (.inr (.inr (.inr ⟨rfl, x, rfl⟩))))
    · exact .inl rfl
  | cls | ldImm | addImm | ldReg | orReg | andReg | xorReg | addReg | subReg | shr | subn | shl | ldI | rnd | drw |
    ldVxDt | ldDtVx | ldStVx | addIVx | ldFVx | ldBVx | storeVx | loadVx =>
    exact .inl ((exec_sameBut h).pc (by simp [partsWritten]))

/-! ### What an instruction does to the call stack -/

/-- The ways the call stack changes inside an instruction: a push of the pre-incremented pc, or a pop, which keeps
the slots. -/
theorem exec_stack_cases {i : Instr} {s t : State} (h : exec i s = .next t) :
    (t.sp = s.sp ∧ t.stack = s.stack) ∨
      (∃ hsp : s.sp < 16, t.sp = s.sp + 1 ∧ t.stack = s.stack.set s.sp s.pc hsp) ∨
      (s.sp = t.sp + 1 ∧ t.stack = s.stack) := by
  by_cases hi : .stack ∈ partsWritten i
  · cases i with
    | ret =>
      rcases exec_ret_cases h with rfl | ⟨k, hk, hsp, rfl⟩
      · exact .inl ⟨rfl, rfl⟩
      · exact .inr (.inr ⟨hsp, rfl⟩)
    | call nnn =>
      rcases exec_call_cases h with rfl | ⟨hsp, rfl⟩
      · exact .inl ⟨rfl, rfl⟩
      · exact .inr (.inl ⟨hsp, rfl, rfl⟩)
    | _ => exact absurd hi (by simp [partsWritten])
  · have hframe := exec_sameBut h
    exact .inl ⟨hframe.sp hi, hframe.stack hi⟩

/-! ### What an instruction does to memory's form -/

theorem skipIf_mem (s : State) (c : Bool) : (s.skipIf c).mem = s.mem := by
  rw [State.skipIf_eq, State.setPc_mem]

theorem keySkip_mem (x : Reg) (want : Bool) (s : State) : (keySkip x want s).mem = s.mem := by
  rcases Nat.lt_or_ge (s.readV x).toNat 16 with h | h
  · rw [keySkip_of_lt want h, skipIf_mem]
  · rw [keySkip_of_le want h, State.logEvent_mem]

theorem advanceIndex_mem (x : Reg) (moved : State × Bool) : (advanceIndex x moved).mem = moved.1.mem := by
  unfold advanceIndex
  split <;> rfl

theorem drawSprite_mem (ox oy : Nat) (bs : List Byte) (s : State) : (drawSprite ox oy bs s).1.mem = s.mem := by
  obtain ⟨p, d, h⟩ := drawSprite_shape ox oy bs s
  rw [h]

theorem logClamp_mem (s : State) (n : Nat) : (logClamp s n).mem = s.mem := by
  obtain ⟨l, h⟩ := logClamp_shape s n
  rw [h]

theorem exec_drw_mem {x y : Reg} {n : Nat} {s t : State} (h : exec (.drw x y n) s = .next t) : t.mem = s.mem := by
  simp only [exec, execDrw] at h
  split at h
  · cases h; rfl
  · cases h
    rw [State.setFlag_mem, drawSprite_mem, logClamp_mem]

/-- An instruction keeps memory in canonical form: FX33 and FX55 store by MemWrite, no other writes it. -/
theorem exec_memWf {i : Instr} {s t : State} (h : exec i s = .next t) (hwf : Memory.wf s.cfg s.mem = true) :
    Memory.wf s.cfg t.mem = true := by
  cases i with
  | ldBVx x =>
    cases h
    obtain ⟨m, l, hstored, hm⟩ := storeBytes_shape s.i.toNat (bcdDigits (s.readV x)) s
    rw [hstored]
    exact hm hwf
  | storeVx x =>
    cases h
    obtain ⟨m, l, hstored, hm, -⟩ := storeRegs_shape s.i.toNat (List.range (x.toNat + 1)) s
    rw [advanceIndex_mem, hstored]
    exact hm hwf
  | loadVx x =>
    cases h
    obtain ⟨v, l, hloaded, -⟩ := loadRegs_shape s.i.toNat (List.range (x.toNat + 1)) s
    rw [advanceIndex_mem, hloaded]
    exact hwf
  | ret => rcases exec_ret_cases h with rfl | ⟨k, hk, -, rfl⟩ <;> exact hwf
  | call nnn => rcases exec_call_cases h with rfl | ⟨hsp, rfl⟩ <;> exact hwf
  | ldVxK x => rcases exec_ldVxK_cases h with rfl | ⟨b, rfl⟩ <;> exact hwf
  | drw x y n => rwa [exec_drw_mem h]
  | seImm | sneImm | seReg | sneReg => cases h; rwa [skipIf_mem]
  | skp | sknp => cases h; rwa [keySkip_mem]
  | cls | jp | ldImm | addImm | ldReg | orReg | andReg | xorReg | addReg | subReg | shr | subn | shl | ldI | jpV0 |
    rnd | ldVxDt | ldDtVx | ldStVx | addIVx | ldFVx => cases h; exact hwf

/-! ### The invariant under an instruction -/

/-- An instruction on a pre-incremented pc of at most 0x1000 keeps the invariant. -/
theorem exec_stateInv {i : Instr} {s t : State} (h : exec i s = .next t) (hs : StateInv s) (hf : s.fault = none)
    (hpc : 2 ≤ s.pc.toNat ∧ s.pc.toNat ≤ 0x1000) : StateInv t := by
  have hframe := exec_sameBut h
  have htpc : t.pc.toNat ≤ 0x10FE := by
    rcases pcChangesOnlyAsListed i s t h with hp | ⟨hp, -⟩ | ⟨nnn, -, hp⟩ | ⟨nnn, -, hp⟩ | ⟨-, k, hk, -, hp⟩ | ⟨hp, -⟩
    · rw [hp]; omega
    · rw [hp]; bv_omega
    · omega
    · omega
    · have := hs.stack k hk
      rw [hp]; omega
    · rw [hp]; bv_omega
  have hstack : t.sp ≤ 16 ∧ ∀ (k : Nat) (hk : k < 16), (t.stack[k]'hk).toNat ≤ 0x1000 := by
    have hsp := hs.sp
    rcases exec_stack_cases h with ⟨hn, hslots⟩ | ⟨hroom, hn, hslots⟩ | ⟨hn, hslots⟩
    · exact ⟨by omega, hslots ▸ hs.stack⟩
    · refine ⟨by omega, fun k hk => ?_⟩
      simp only [hslots, Vector.getElem_set]
      split
      · exact hpc.2
      · exact hs.stack k hk
    · exact ⟨by omega, hslots ▸ hs.stack⟩
  exact {
    cfg := by rw [hframe.cfg]; exact hs.cfg
    mem := by rw [hframe.cfg]; exact exec_memWf h hs.mem
    sp := hstack.1
    acc := by rw [hframe.acc, hframe.cfg]; exact hs.acc
    pc := htpc
    stack := hstack.2
    fault := by simp [faultAtPc, hframe.fault, hf] }

/-- A fetch in bounds leaves pc past the word, at 0x1000 at most. -/
theorem preIncrement_pc_bounds {s : State} (h : s.pc.toNat + 1 < memSize) :
    2 ≤ (preIncrement s).pc.toNat ∧ (preIncrement s).pc.toNat ≤ 0x1000 := by
  simp only [memSize] at h
  rw [preIncrement_pc]
  bv_omega

theorem stateInv_preIncrement {s : State} (hs : StateInv s) (hf : s.fault = none) (hpc : s.pc.toNat + 1 < memSize) :
    StateInv (preIncrement s) :=
  { hs with
    pc := (preIncrement_pc_bounds hpc).2.trans (by decide)
    fault := by simp [faultAtPc, hf] }

/-- Settles O13: the fetch fault by its definition, an instruction on the pre-incremented pc by its effects on pc,
the stack and memory. -/
theorem stepKeepsInvariant : Obligations.StepKeepsInvariant := by
  unfold Obligations.StepKeepsInvariant
  intro s t hs h
  obtain ⟨hf, ⟨hw, rfl⟩ | ⟨w, i, hw, -, hexec⟩ | ⟨w, u, hw, -, rfl⟩⟩ := step_cases h
  · have hpc := fetchWord_eq_none.1 hw
    exact { hs with fault := by simp [faultAtPc, hpc] }
  · have hpc := fetchWord_pc hw
    exact exec_stateInv hexec (stateInv_preIncrement hs hf hpc) hf (preIncrement_pc_bounds hpc)
  · exact { stateInv_preIncrement hs hf (fetchWord_pc hw) with }

/-! ### The invariant at reset and under every transaction -/

theorem stateInv_resetWith {c : Config} (h : c.Admitted) : StateInv (State.resetWith c) where
  cfg := h
  mem := rfl
  sp := Nat.zero_le 16
  acc := h.2
  pc := Nat.le_of_ble_eq_true rfl
  stack k hk := by simp [State.resetWith]
  fault := rfl

/-- Settles O12: field by field, from the reset values. -/
theorem resetMeetsInvariant : Obligations.ResetMeetsInvariant := by
  unfold Obligations.ResetMeetsInvariant
  exact ⟨fun _ h => stateInv_resetWith h, stateInv_resetWith (by decide)⟩

/-- Settles O14: a step by the step's lemma, a reset by the reset state, a tick by the remainder it leaves; the
other transactions write nothing of the invariant but memory, which they keep canonical. -/
theorem transactionsKeepInvariant : Obligations.TransactionsKeepInvariant := by
  unfold Obligations.TransactionsKeepInvariant
  intro tr s t r hs h
  rcases transact_cases h with ⟨-, hstep⟩ | ⟨-, rfl⟩ | ⟨e, rfl⟩ | ⟨m, rfl, hm⟩ | ⟨key, dirty, rfl⟩
  · exact stepKeepsInvariant s t hs hstep
  · exact { stateInv_resetWith hs.cfg with }
  · exact { hs with acc := tick_acc_lt e hs.cfg.2 }
  · exact { hs with mem := hm hs.mem }
  · exact { hs with }

/-- Settles O15: by induction along the schedule, from reset by one transaction after another. -/
theorem reachableStatesMeetInvariant : Obligations.ReachableStatesMeetInvariant := by
  unfold Obligations.ReachableStatesMeetInvariant
  intro s hs
  induction hs with
  | reset c hc => exact stateInv_resetWith hc
  | transact tr s t r _ htr ih => exact transactionsKeepInvariant tr s t r ih htr

end Sys2Proof.Machine
end

section
/-! PROOFS. What the interpreter never reads: one simulation between two runs whose starts differ in the log, in ST, the
dirty flag, the accumulator and the latch, and in the stack slots at SP and above; the obligations are its three
cases (10_state.md rule R25 to rule R27, rule R30, rule R36; 60_exceptions.md rule R123). -/

namespace Sys2Proof.Machine

/-! ### The relation -/

/-- `s` and `u` are states of two runs that began together, at `s₀` and `u₀`: they agree in everything the interpreter
reads, they have logged the same events since, ST and dirty are each alike or both as they were, the timer clock's
own state is as it was, and the live stack slots agree (all slots, where all did at the start). -/
structure Twin (s₀ u₀ s u : State) : Prop where
  mem : u.mem = s.mem
  v : u.v = s.v
  i : u.i = s.i
  pc : u.pc = s.pc
  sp : u.sp = s.sp
  dt : u.dt = s.dt
  key : u.key = s.key
  pix : u.pix = s.pix
  fault : u.fault = s.fault
  cfg : u.cfg = s.cfg
  draws : u.draws = s.draws
  started : u.started = s.started
  log : ∃ events, s.log = s₀.log ++ events ∧ u.log = u₀.log ++ events
  st : (u.st = u₀.st ∧ s.st = s₀.st) ∨ u.st = s.st
  dirty : (u.dirty = u₀.dirty ∧ s.dirty = s₀.dirty) ∨ u.dirty = s.dirty
  acc : u.acc = u₀.acc ∧ s.acc = s₀.acc
  toneLatch : u.toneLatch = u₀.toneLatch ∧ s.toneLatch = s₀.toneLatch
  live : ∀ (k : Nat) (h : k < 16), k < s.sp → u.stack[k] = s.stack[k]
  stack : u₀.stack = s₀.stack → u.stack = s.stack

/-- Twins differ in the fields the interpreter does not read, and in no other. -/
theorem Twin.eq_with_unread {s₀ u₀ s u : State} (h : Twin s₀ u₀ s u) :
    u = { s with log := u.log, st := u.st, dirty := u.dirty, acc := u.acc, toneLatch := u.toneLatch,
                 stack := u.stack } := by
  obtain ⟨hmem, hv, hi, hpc, hsp, hdt, hkey, hpix, hfault, hcfg, hdraws, hstarted, -, -, -, -, -, -, -⟩ := h
  cases u
  simp_all

section
variable {s₀ u₀ s u : State} (h : Twin s₀ u₀ s u)
include h

/-! ### Fields that began alike stay alike -/

theorem Twin.log_eq (h₀ : u₀.log = s₀.log) : u.log = s.log := by
  obtain ⟨events, hs, hu⟩ := h.log
  rw [hs, hu, h₀]

theorem Twin.st_eq (h₀ : u₀.st = s₀.st) : u.st = s.st :=
  h.st.elim (fun ⟨hu, hs⟩ => hu.trans (h₀.trans hs.symm)) id

theorem Twin.dirty_eq (h₀ : u₀.dirty = s₀.dirty) : u.dirty = s.dirty :=
  h.dirty.elim (fun ⟨hu, hs⟩ => hu.trans (h₀.trans hs.symm)) id

theorem Twin.acc_eq (h₀ : u₀.acc = s₀.acc) : u.acc = s.acc := h.acc.1.trans (h₀.trans h.acc.2.symm)

theorem Twin.toneLatch_eq (h₀ : u₀.toneLatch = s₀.toneLatch) : u.toneLatch = s.toneLatch :=
  h.toneLatch.1.trans (h₀.trans h.toneLatch.2.symm)

/-! ### Twins read alike -/

theorem Twin.readV (x : Reg) : u.readV x = s.readV x := by
  simp only [State.readV, h.v]

theorem Twin.memRead (a : Nat) : u.memRead a = s.memRead a := State.memRead_congr s u a h.cfg h.mem

theorem Twin.fetchWord : fetchWord u = fetchWord s := fetchWord_congr h.pc h.cfg h.mem

theorem Twin.isDown (k : Nat) : u.isDown k = s.isDown k := by
  simp only [State.isDown, h.key]

theorem Twin.getPixel (x y : Nat) : u.getPixel x y = s.getPixel x y := by
  simp only [State.getPixel, h.pix]

theorem Twin.instrAddr : u.instrAddr = s.instrAddr := by
  simp only [State.instrAddr, h.pc]

theorem Twin.spriteBytes (rows : Nat) : spriteBytes u rows = spriteBytes s rows := by
  simp only [Machine.spriteBytes, h.memRead, h.i]

/-! ### Twins under one update -/

theorem Twin.setV (x : Reg) {b c : Byte} (hc : c = b) : Twin s₀ u₀ (s.setV x b) (u.setV x c) :=
  { h with v := by simp [h.v, hc] }

theorem Twin.setFlag {b c : Bool} (hc : c = b) : Twin s₀ u₀ (s.setFlag b) (u.setFlag c) :=
  h.setV vf (congrArg flagByte hc)

theorem Twin.setI {w z : Word} (hz : z = w) : Twin s₀ u₀ (s.setI w) (u.setI z) :=
  { h with i := hz }

theorem Twin.setPc {w z : Word} (hz : z = w) : Twin s₀ u₀ (s.setPc w) (u.setPc z) :=
  { h with pc := hz }

theorem Twin.skipIf {b c : Bool} (hc : c = b) : Twin s₀ u₀ (s.skipIf b) (u.skipIf c) := by
  rw [State.skipIf_eq, State.skipIf_eq, hc, h.pc]
  exact h.setPc rfl

theorem Twin.logEvent {e f : LogEvent} (hf : f = e) : Twin s₀ u₀ (s.logEvent e) (u.logEvent f) := by
  obtain ⟨events, hs, hu⟩ := h.log
  exact { h with log := ⟨events ++ [e], by simp [hs], by simp [hu, hf]⟩ }

theorem Twin.setMem {m n : List Host.Cell} (hn : n = m) : Twin s₀ u₀ { s with mem := m } { u with mem := n } :=
  { h with mem := hn }

theorem Twin.setDisplay {p q : Pixels} (hq : q = p) :
    Twin s₀ u₀ { s with pix := p, dirty := true } { u with pix := q, dirty := true } :=
  { h with pix := hq, dirty := .inr rfl }

theorem Twin.preIncrement : Twin s₀ u₀ (preIncrement s) (preIncrement u) :=
  { h with pc := by simp [h.pc], started := rfl }

theorem Twin.takeFetchFault : Twin s₀ u₀ (takeFetchFault s) (takeFetchFault u) :=
  { h with fault := by simp [h.pc] }

/-! ### Twins under the shared operations -/

theorem Twin.writeResultThenFlag (x : Reg) {b c : Byte} (hc : c = b) {f g : Bool} (hg : g = f) :
    Twin s₀ u₀ (writeResultThenFlag x b f s) (writeResultThenFlag x c g u) :=
  (h.setV x hc).setFlag hg

theorem Twin.keySkip (x : Reg) (want : Bool) : Twin s₀ u₀ (keySkip x want s) (keySkip x want u) := by
  unfold Machine.keySkip
  rw [h.isDown, h.readV]
  cases s.isDown (s.readV x).toNat with
  | none => exact h.logEvent rfl
  | some down => exact h.skipIf rfl

/-- A pop answers the same slot, a live one. -/
theorem Twin.execRet : ∃ t t', exec .ret s = .next t ∧ exec .ret u = .next t' ∧ Twin s₀ u₀ t t' := by
  by_cases hsp : 0 < s.sp ∧ s.sp ≤ 16
  · have husp : 0 < u.sp ∧ u.sp ≤ 16 := by rwa [h.sp]
    have hslot : u.stack[u.sp - 1] = s.stack[s.sp - 1] := by
      simp only [h.sp]
      exact h.live _ (by omega) (by omega)
    refine ⟨_, _, exec_ret_of_pop hsp, exec_ret_of_pop husp, Twin.setPc ?_ hslot⟩
    exact { h with
      sp := congrArg (· - 1) h.sp
      live := fun k hk hlt => h.live k hk (hlt.trans_le (Nat.sub_le _ _)) }
  · have hempty : s.sp = 0 ∨ 16 < s.sp := by omega
    have huempty : u.sp = 0 ∨ 16 < u.sp := by rwa [h.sp]
    exact ⟨_, _, exec_ret_of_underflow hempty, exec_ret_of_underflow huempty,
      h.logEvent (congrArg LogEvent.stackUnderflow h.instrAddr)⟩

/-- A push stores the same value at the same depth. -/
theorem Twin.execCall (nnn : Addr12) :
    ∃ t t', exec (.call nnn) s = .next t ∧ exec (.call nnn) u = .next t' ∧ Twin s₀ u₀ t t' := by
  rcases Nat.lt_or_ge s.sp 16 with hsp | hsp
  · have husp : u.sp < 16 := by rwa [h.sp]
    refine ⟨_, _, exec_call_of_room nnn hsp, exec_call_of_room nnn husp, Twin.setPc ?_ rfl⟩
    exact { h with
      sp := congrArg (· + 1) h.sp
      live := fun k hk hlt => by
        have hlt : k < s.sp + 1 := hlt
        have hold : k ≠ s.sp → u.stack[k] = s.stack[k] := fun hne => h.live k hk (by omega)
        simp only [Vector.getElem_set, h.sp, h.pc]
        split
        · rfl
        · next hne => exact hold (Ne.symm hne)
      stack := fun h₀ => by simp [h.sp, h.pc, h.stack h₀] }
  · have husp : 16 ≤ u.sp := by rwa [h.sp]
    exact ⟨_, _, exec_call_of_full nnn hsp, exec_call_of_full nnn husp,
      h.logEvent (congrArg LogEvent.stackOverflow h.instrAddr)⟩

theorem Twin.execLdVxK (x : Reg) :
    ∃ t t', exec (.ldVxK x) s = .next t ∧ exec (.ldVxK x) u = .next t' ∧ Twin s₀ u₀ t t' := by
  have hfirst := State.firstPressed_congr h.key
  cases hk : s.firstPressed with
  | none => exact ⟨_, _, exec_ldVxK_of_none x hk, exec_ldVxK_of_none x (hfirst.trans hk), h.setPc (by rw [h.pc])⟩
  | some k => exact ⟨_, _, exec_ldVxK_of_some x hk, exec_ldVxK_of_some x (hfirst.trans hk), h.setV x rfl⟩

theorem Twin.logClamp (n : Nat) : Twin s₀ u₀ (logClamp s n) (logClamp u n) := by
  unfold Machine.logClamp
  rw [h.i]
  split
  · exact h
  · exact h.logEvent rfl

end

/-! ### Twins under the loops -/

theorem Twin.storeRegs {s₀ u₀ s u : State} (h : Twin s₀ u₀ s u) (base : Nat) (js : List Nat) :
    Twin s₀ u₀ (storeRegs base js s).1 (storeRegs base js u).1 ∧
      (storeRegs base js u).2 = (storeRegs base js s).2 := by
  induction js generalizing s u with
  | nil => exact ⟨h, rfl⟩
  | cons j js ih =>
    rcases Nat.lt_or_ge (base + j) memSize with ha | ha
    · simp only [Machine.storeRegs, State.memWrite_of_lt _ _ ha]
      exact ih (h.setMem (by rw [h.cfg, h.mem, h.readV]))
    · rw [storeRegs_cons_of_le js s ha, storeRegs_cons_of_le js u ha]
      exact ⟨h.logEvent rfl, rfl⟩

theorem Twin.loadRegs {s₀ u₀ s u : State} (h : Twin s₀ u₀ s u) (base : Nat) (js : List Nat) :
    Twin s₀ u₀ (loadRegs base js s).1 (loadRegs base js u).1 ∧
      (loadRegs base js u).2 = (loadRegs base js s).2 := by
  induction js generalizing s u with
  | nil => exact ⟨h, rfl⟩
  | cons j js ih =>
    unfold Machine.loadRegs
    rw [h.memRead]
    cases s.memRead (base + j) with
    | none => exact ⟨h.logEvent rfl, rfl⟩
    | some b => exact ih (h.setV _ rfl)

theorem Twin.storeBytes {s₀ u₀ s u : State} (h : Twin s₀ u₀ s u) (a : Nat) (bs : List Byte) :
    Twin s₀ u₀ (storeBytes a bs s) (storeBytes a bs u) := by
  induction bs generalizing a s u with
  | nil => exact h
  | cons b bs ih =>
    rcases Nat.lt_or_ge a memSize with ha | ha
    · simp only [Machine.storeBytes, State.memWrite_of_lt _ _ ha]
      exact ih (h.setMem (by rw [h.cfg, h.mem])) _
    · simp only [Machine.storeBytes, State.memWrite_eq_none.2 ha]
      exact ih (h.logEvent rfl) _

theorem Twin.toggleCells {s₀ u₀ s u : State} (h : Twin s₀ u₀ s u) (ps : List (Nat × Nat)) (hit : Bool) :
    Twin s₀ u₀ (toggleCells ps s hit).1 (toggleCells ps u hit).1 ∧
      (toggleCells ps u hit).2 = (toggleCells ps s hit).2 := by
  induction ps generalizing s u hit with
  | nil => exact ⟨h, rfl⟩
  | cons p ps ih =>
    unfold Machine.toggleCells
    have hpix : pixelSet u.pix p.1 p.2 (!u.getPixel p.1 p.2) = pixelSet s.pix p.1 p.2 (!s.getPixel p.1 p.2) := by
      rw [h.pix, h.getPixel]
    rw [togglePixel_snd, togglePixel_snd, h.getPixel]
    exact ih (h.setDisplay hpix) _

/-! ### Twins under an instruction and a step -/

section
variable {s₀ u₀ s u : State} (h : Twin s₀ u₀ s u)
include h

theorem Twin.advanceIndex (x : Reg) {b c : Bool} (hc : c = b) :
    Twin s₀ u₀ (advanceIndex x (s, b)) (advanceIndex x (u, c)) := by
  subst hc
  cases c with
  | false => exact h
  | true => exact h.setI (by rw [h.i])

theorem Twin.execDrw (x y : Reg) (n : Nat) :
    ∃ t t', exec (.drw x y n) s = .next t ∧ exec (.drw x y n) u = .next t' ∧ Twin s₀ u₀ t t' := by
  simp only [Machine.exec, Machine.execDrw]
  split
  · exact ⟨_, _, rfl, rfl, h.setFlag rfl⟩
  · rw [h.readV, h.readV, h.i, h.spriteBytes]
    obtain ⟨hdrawn, hhit⟩ := (h.logClamp n).toggleCells (spriteCells (s.readV x).toNat (s.readV y).toNat
      (Machine.spriteBytes s (clampRows s.i n))) false
    exact ⟨_, _, rfl, rfl, hdrawn.setFlag hhit⟩

/-- Twins execute an instruction alike. -/
theorem Twin.exec (i : Instr) : ∃ t t', exec i s = .next t ∧ exec i u = .next t' ∧ Twin s₀ u₀ t t' := by
  cases i with
  | cls => exact ⟨_, _, rfl, rfl, h.setDisplay rfl⟩
  | ret => exact h.execRet
  | jp nnn => exact ⟨_, _, rfl, rfl, h.setPc rfl⟩
  | call nnn => exact h.execCall nnn
  | seImm | sneImm | seReg | sneReg => exact ⟨_, _, rfl, rfl, h.skipIf (by simp only [h.readV])⟩
  | ldImm | addImm | ldReg => exact ⟨_, _, rfl, rfl, h.setV _ (by simp only [h.readV])⟩
  | orReg | andReg | xorReg => exact ⟨_, _, rfl, rfl, h.writeResultThenFlag _ (by simp only [h.readV]) rfl⟩
  | addReg | subReg | subn =>
    exact ⟨_, _, rfl, rfl, h.writeResultThenFlag _ (by simp only [h.readV]) (by simp only [h.readV])⟩
  | shr x =>
    have hflag := h.setFlag (congrArg shiftedOutRight (h.readV x))
    exact ⟨_, _, rfl, rfl, hflag.setV x (by rw [hflag.readV])⟩
  | shl x =>
    have hflag := h.setFlag (congrArg shiftedOutLeft (h.readV x))
    exact ⟨_, _, rfl, rfl, hflag.setV x (by rw [hflag.readV])⟩
  | ldI nnn => exact ⟨_, _, rfl, rfl, h.setI rfl⟩
  | jpV0 nnn => exact ⟨_, _, rfl, rfl, h.setPc (by rw [h.readV])⟩
  | rnd x nn =>
    have hdrawn : Twin s₀ u₀ (drawRand s).2 (drawRand u).2 := { h with draws := congrArg (· + 1) h.draws }
    exact ⟨_, _, rfl, rfl, hdrawn.setV x (by simp only [drawRand, h.draws])⟩
  | drw x y n => exact h.execDrw x y n
  | skp x | sknp x => exact ⟨_, _, rfl, rfl, h.keySkip x _⟩
  | ldVxDt x => exact ⟨_, _, rfl, rfl, h.setV x h.dt⟩
  | ldVxK x => exact h.execLdVxK x
  | ldDtVx x => exact ⟨_, _, rfl, rfl, { h with dt := h.readV x }⟩
  | ldStVx x => exact ⟨_, _, rfl, rfl, { h with st := .inr (h.readV x) }⟩
  | addIVx x => exact ⟨_, _, rfl, rfl, h.setI (by rw [h.i, h.readV])⟩
  | ldFVx x => exact ⟨_, _, rfl, rfl, h.setI (by rw [h.cfg, h.readV])⟩
  | ldBVx x =>
    refine ⟨_, _, rfl, rfl, ?_⟩
    rw [h.i, h.readV]
    exact h.storeBytes _ _
  | storeVx x =>
    refine ⟨_, _, rfl, rfl, ?_⟩
    rw [h.i]
    obtain ⟨hmoved, hall⟩ := h.storeRegs s.i.toNat (List.range (x.toNat + 1))
    exact hmoved.advanceIndex x hall
  | loadVx x =>
    refine ⟨_, _, rfl, rfl, ?_⟩
    rw [h.i]
    obtain ⟨hmoved, hall⟩ := h.loadRegs s.i.toNat (List.range (x.toNat + 1))
    exact hmoved.advanceIndex x hall

/-- Twins step alike. -/
theorem Twin.step {t : State} (hstep : step s = .next t) : ∃ t', step u = .next t' ∧ Twin s₀ u₀ t t' := by
  obtain ⟨hf, ⟨hw, rfl⟩ | ⟨w, i, hw, hi, hexec⟩ | ⟨w, z, hw, hz, rfl⟩⟩ := step_cases hstep
  · exact ⟨_, step_of_fetch_none (h.fault.trans hf) (h.fetchWord.trans hw), h.takeFetchFault⟩
  · obtain ⟨t₁, t', ht₁, ht', htwin⟩ := h.preIncrement.exec i
    obtain rfl : t₁ = t := Host.Outcome.next.inj (ht₁.symm.trans hexec)
    exact ⟨t', (step_of_instr (h.fault.trans hf) (h.fetchWord.trans hw) hi).trans ht', htwin⟩
  · exact ⟨_, step_of_unimplemented (h.fault.trans hf) (h.fetchWord.trans hw) hz, h.preIncrement.logEvent rfl⟩

end

/-- States that differ in the unread fields, and agree in the live stack slots, begin as twins. -/
theorem twin_start (s : State) (log : List LogEvent) (st : Byte) (dirty : Bool) (acc : Nat) (latch : Bool)
    {stack : Vector Word 16} (hlive : ∀ (k : Nat) (h : k < 16), k < s.sp → stack[k] = s.stack[k]) :
    Twin s { s with log := log, st := st, dirty := dirty, acc := acc, toneLatch := latch, stack := stack } s
      { s with log := log, st := st, dirty := dirty, acc := acc, toneLatch := latch, stack := stack } := by
  constructor <;> simp_all

/-- Settles O57: twins whose starts differ in the log alone. -/
theorem logIsNeverRead : Obligations.LogIsNeverRead := by
  unfold Obligations.LogIsNeverRead
  intro s other
  constructor
  · intro t h
    have hstart := twin_start s other s.st s.dirty s.acc s.toneLatch (stack := s.stack) fun _ _ _ => rfl
    obtain ⟨t', ht', htwin⟩ := hstart.step h
    obtain ⟨events, hlog, hlog'⟩ := htwin.log
    refine ⟨events, hlog, ht'.trans (congrArg _ ?_)⟩
    rw [htwin.eq_with_unread, hlog', htwin.st_eq rfl, htwin.dirty_eq rfl, htwin.acc_eq rfl, htwin.toneLatch_eq rfl,
      htwin.stack rfl]
  · intro f h
    have hf := fault_of_step_eq_fault h
    exact step_of_fault hf

/-- Settles O58: twins whose starts differ in ST, dirty, the accumulator and the latch alone. -/
theorem hostOnlyStateIsNeverRead : Obligations.HostOnlyStateIsNeverRead := by
  unfold Obligations.HostOnlyStateIsNeverRead
  intro s t st dirty latch acc h
  obtain ⟨t', ht', htwin⟩ := (twin_start s s.log st dirty acc latch (stack := s.stack) fun _ _ _ => rfl).step h
  refine ⟨t'.st, t'.dirty, ht'.trans (congrArg _ ?_), htwin.st, htwin.dirty, htwin.acc.2, htwin.toneLatch.2⟩
  rw [htwin.eq_with_unread, htwin.log_eq rfl, htwin.acc.1, htwin.toneLatch.1, htwin.stack rfl]

/-- Settles O59: twins whose starts differ in the stack slots at SP and above alone. -/
theorem stackAboveSpIsNeverRead : Obligations.StackAboveSpIsNeverRead := by
  unfold Obligations.StackAboveSpIsNeverRead
  intro s t other _ hlive h
  obtain ⟨t', ht', htwin⟩ := (twin_start s s.log s.st s.dirty s.acc s.toneLatch hlive).step h
  refine ⟨t'.stack, ht'.trans (congrArg _ ?_), htwin.live⟩
  rw [htwin.eq_with_unread, htwin.log_eq rfl, htwin.st_eq rfl, htwin.dirty_eq rfl, htwin.acc_eq rfl,
    htwin.toneLatch_eq rfl]

end Sys2Proof.Machine
end

section
/-! PROOFS. The instruction cycle, the fetch fault, the started flag, the states a run ends in, and the obligations
about them (30_encoding.md rule R56 to rule R58, rule R64; 60_exceptions.md rule R124, rule R140; 70_reset_and_hazards.md
rule R149). -/

namespace Sys2Proof.Machine

/-! ### The cycle -/

/-- Settles O5: the step of an unimplemented word. -/
theorem unimplementedStepOnlyLogs : Obligations.UnimplementedStepOnlyLogs := by
  unfold Obligations.UnimplementedStepOnlyLogs
  exact fun s w hf hw hd => step_of_unimplemented hf hw hd

/-- Settles O6: the two bytes read at pc are the word fetched. -/
theorem stepRunsDecodedInstruction : Obligations.StepRunsDecodedInstruction := by
  unfold Obligations.StepRunsDecodedInstruction
  intro s hi lo i hf hhi hlo hd
  rw [← wordOfBytes_eq_ofNat] at hd
  exact step_of_instr hf (fetchWord_of_memRead hhi hlo) hd

/-! ### The one stop -/

/-- Every transaction but a step answers in every state, a load where no step was taken. -/
theorem exists_transact_of_ne_step {tr : Transaction} {s : State} (hstep : tr ≠ .step)
    (hload : (∃ bytes, tr = .loadProgram bytes) → s.started = false) : ∃ t r, transact tr s = .next (t, r) := by
  cases tr with
  | step => exact absurd rfl hstep
  | loadProgram bytes =>
    have hs := hload ⟨bytes, rfl⟩
    cases hl : loadProgram bytes s with
    | none => exact ⟨s, _, transact_loadProgram_of_none hs hl⟩
    | some t => exact ⟨t, _, transact_loadProgram_of_some hs hl⟩
  | isDown k =>
    rcases Nat.lt_or_ge k 16 with hk | hk
    · exact ⟨s, _, transact_isDown_of_lt s hk⟩
    · exact ⟨s, _, transact_isDown_of_le s hk⟩
  | reset | tick | press | release | consumeDirty | snapshot => exact ⟨_, _, rfl⟩

/-- Settles O7: the step of a failed fetch, then that of a recorded fault. -/
theorem fetchOutOfBoundsStops : Obligations.FetchOutOfBoundsStops := by
  unfold Obligations.FetchOutOfBoundsStops
  intro s hf hpc
  exact ⟨takeFetchFault s, step_of_fetch_none hf (fetchWord_eq_none.2 hpc), rfl, step_of_fault rfl,
    fun tr hstep hload => exists_transact_of_ne_step hstep hload⟩

/-- Settles O8: a state without a fault has a step, one with a fault answers it. -/
theorem onlyRecordedFaultStops : Obligations.OnlyRecordedFaultStops := by
  unfold Obligations.OnlyRecordedFaultStops
  exact fun s => ⟨exists_step_of_no_fault, fun f => step_of_fault⟩

/-- Settles O9: a step by whether its fetch is in bounds, the transactions by what they write. -/
theorem faultSetByFetchClearedByReset : Obligations.FaultSetByFetchClearedByReset := by
  unfold Obligations.FaultSetByFetchClearedByReset
  refine ⟨fun s t h => ?_, fun tr s t r h hstep hreset => ?_, fun s t r h => ?_⟩
  · split
    · next hpc => rw [step_of_fetch_out h hpc, takeFetchFault_fault]
    · next hpc => exact (step_of_fetch_in h (Nat.lt_of_not_le hpc)).1
  · rcases transact_cases h with ⟨rfl, -⟩ | ⟨rfl, -⟩ | ⟨e, rfl⟩ | ⟨m, rfl, -⟩ | ⟨key, dirty, rfl⟩
    · exact absurd rfl hstep
    · exact absurd rfl hreset
    all_goals rfl
  · cases h
    rfl

/-! ### The started flag -/

theorem step_started {s t : State} (h : step s = .next t) (hs : s.started = true) : t.started = true := by
  rcases Nat.lt_or_ge (s.pc.toNat + 1) memSize with hpc | hpc
  · exact (step_of_fetch_in h hpc).2
  · rw [step_of_fetch_out h hpc, takeFetchFault_started, hs]

/-- Settles O52: a step by whether its fetch is in bounds, the transactions by what they write. -/
theorem loadAfterFirstStepRefused : Obligations.LoadAfterFirstStepRefused := by
  unfold Obligations.LoadAfterFirstStepRefused
  refine ⟨fun s t hpc h => (step_of_fetch_in h hpc).2, fun s bytes hs => transact_loadProgram_of_started hs,
    fun tr s t r hreset h hs => ?_, fun s t r h => ?_⟩
  · rcases transact_cases h with ⟨-, hstep⟩ | ⟨rfl, -⟩ | ⟨e, rfl⟩ | ⟨m, rfl, -⟩ | ⟨key, dirty, rfl⟩
    · exact step_started hstep hs
    · exact absurd rfl hreset
    all_goals exact hs
  · cases h
    rfl

/-! ### The end of a run -/

theorem encode_jp_eq (a : Addr12) : 0x1000 ||| zext16 a = encode (.jp a) := by
  apply BitVec.eq_of_toNat_eq
  rw [BitVec.toNat_or, toNat_zext16, encode, formatFA, BitVec.toNat_append]
  rfl

/-- A word under the pattern FX0A is the word of LD Vx, K. -/
theorem encode_ldVxK_of_and {w : Word} (h : w &&& 0xF0FF = 0xF00A) : encode (.ldVxK (xField w)) = w := by
  have hw := formatFI_fields w
  have hpattern : (0xF00A : Word) = formatFI 0xF 0 0x0A := by decide
  rw [← hw, Laws.TableBits.formatFX_and, hpattern] at h
  have hop : opField w = 0xF := by simpa using congrArg opField h
  have hnn : nnField w = 0x0A := by simpa using congrArg nnField h
  rwa [hop, hnn] at hw

theorem parkedAt_iff {a : Addr12} {s : State} :
    parkedAt a s = true ↔ s.fault = none ∧ s.pc = zext16 a ∧ fetchWord s = some (0x1000 ||| zext16 a) := by
  simp [parkedAt, and_assoc]

theorem waiting_iff {s : State} :
    waiting s = true ↔ (∃ w, fetchWord s = some w ∧ w &&& 0xF0FF = 0xF00A) ∧ s.firstPressed = none := by
  unfold waiting
  cases fetchWord s <;> simp

/-- A parked state steps by its jump to itself. -/
theorem step_of_parkedAt {a : Addr12} {s : State} (h : parkedAt a s = true) :
    step s = .next { s with started := true } := by
  obtain ⟨hf, hpc, hw⟩ := parkedAt_iff.1 h
  have hd : decode (0x1000 ||| zext16 a) = .instr (.jp a) := by rw [encode_jp_eq, decode_encode rfl]
  calc step s = exec (.jp a) (preIncrement s) := step_of_instr hf hw hd
    _ = .next ((preIncrement s).setPc (zext16 a)) := rfl
    _ = .next { s with started := true } := by rw [← hpc]; rfl

/-- A waiting state steps by its LD Vx, K, which goes back over itself. -/
theorem step_of_waiting {s : State} (hf : s.fault = none) (h : waiting s = true) :
    step s = .next { s with started := true } := by
  obtain ⟨⟨w, hw, hpattern⟩, hkeys⟩ := waiting_iff.1 h
  have hd : decode w = .instr (.ldVxK (xField w)) := by
    have hword := encode_ldVxK_of_and hpattern
    rw [← hword, decode_encode rfl, hword]
  have hback : s.pc + 2 - 2 = s.pc := BitVec.add_sub_cancel _ _
  rw [step_of_instr hf hw hd, exec_ldVxK_of_none (s := preIncrement s) _ hkeys, preIncrement_pc, hback]
  rfl

/-- Settles O56: each step by its one instruction; the started flag is read by neither definition. -/
theorem parkedAndWaitingStatesStay : Obligations.ParkedAndWaitingStatesStay := by
  unfold Obligations.ParkedAndWaitingStatesStay
  exact ⟨fun a s h => ⟨step_of_parkedAt h, h⟩, fun s hf h => ⟨step_of_waiting hf h, h⟩⟩

end Sys2Proof.Machine
end

section
/-! PROOFS. Register arithmetic and its flag, the V registers an instruction leaves alone, the subroutine return, the
index add, the random byte, and the obligations about them (10_state.md rule R17, rule R18; 40_flow.md rule R71;
41_alu.md rule R80 to rule R89; 42_index_random.md rule R93; 45_fx.md rule R114). -/

namespace Sys2Proof.Machine

/-! ### The flag -/

theorem flagByte_eq_zero_or_one (c : Bool) : flagByte c = 0 ∨ flagByte c = 1 := by
  cases c
  · exact .inl rfl
  · exact .inr rfl

theorem flagByte_toNat (c : Bool) : (flagByte c).toNat = c.toNat := by
  cases c <;> rfl

@[simp] theorem readV_writeResultThenFlag (x : Reg) (b : Byte) (c : Bool) (s : State) (r : Reg) :
    (writeResultThenFlag x b c s).readV r = if r = vf then flagByte c else if r = x then b else s.readV r := by
  simp [writeResultThenFlag]

/-- An instruction that writes a result to V[x] and then a flag completes: VF reads the flag, V[x] the result where
x is not F, and the rest is left alone. -/
theorem completes_of_exec_eq_writeResultThenFlag {i : Instr} {s : State} {x : Reg} {b : Byte} {c : Bool}
    (h : exec i s = .next (writeResultThenFlag x b c s)) :
    Completes i s fun t => t.readV vf = flagByte c ∧ (x ≠ vf → t.readV x = b) ∧
      (∀ r, r ≠ x → r ≠ vf → t.readV r = s.readV r) ∧ SameBut [.v] s t := by
  refine ⟨_, h, ?_, ?_, ?_, sameBut_writeResultThenFlag x b c s⟩
  · simp
  · exact fun hx => by simp [hx]
  · exact fun r hr hvf => by simp [hr, hvf]

/-- Settles O28: the bits of the result where x is not F, the flag cleared after it. -/
theorem logicClearsFlag : Obligations.LogicClearsFlag := by
  unfold Obligations.LogicClearsFlag
  intro s x y
  refine ⟨?_, ?_, ?_⟩
  · obtain ⟨t, hexec, hflag, hx, hframe⟩ := completes_of_exec_eq_writeResultThenFlag (i := .orReg x y) (s := s) rfl
    exact ⟨t, hexec, hflag, fun hne k _ => by rw [hx hne, BitVec.getLsbD_or], hframe⟩
  · obtain ⟨t, hexec, hflag, hx, hframe⟩ := completes_of_exec_eq_writeResultThenFlag (i := .andReg x y) (s := s) rfl
    exact ⟨t, hexec, hflag, fun hne k _ => by rw [hx hne, BitVec.getLsbD_and], hframe⟩
  · obtain ⟨t, hexec, hflag, hx, hframe⟩ := completes_of_exec_eq_writeResultThenFlag (i := .xorReg x y) (s := s) rfl
    exact ⟨t, hexec, hflag, fun hne k _ => by rw [hx hne, BitVec.getLsbD_xor, Bool.bne_eq_xor], hframe⟩

/-- The carry flag is the quotient of the sum by 256. -/
theorem toNat_flagByte_carryOut (a b : Byte) : (flagByte (carryOut a b)).toNat = (a.toNat + b.toNat) / 256 := by
  rw [flagByte_toNat, carryOut]
  by_cases hcarry : 255 < a.toNat + b.toNat
  · rw [decide_eq_true hcarry, Bool.toNat_true]
    omega
  · rw [decide_eq_false hcarry, Bool.toNat_false]
    omega

/-- Settles O29: byte addition is addition modulo 256, and the flag is its carry. -/
theorem addRegSetsCarry : Obligations.AddRegSetsCarry := by
  unfold Obligations.AddRegSetsCarry
  intro s x y
  obtain ⟨t, hexec, hflag, hx, hframe⟩ := completes_of_exec_eq_writeResultThenFlag (i := .addReg x y) (s := s) rfl
  exact ⟨t, hexec, fun hne => by rw [hx hne, BitVec.toNat_add], by rw [hflag, toNat_flagByte_carryOut], hframe⟩

theorem toNat_byte_sub (a b : Byte) : (a - b).toNat = (256 + a.toNat - b.toNat) % 256 := by
  rw [BitVec.toNat_sub]
  omega

/-- Settles O30: byte subtraction is subtraction modulo 256, and the flag compares the operands. -/
theorem subtractsSetNoBorrow : Obligations.SubtractsSetNoBorrow := by
  unfold Obligations.SubtractsSetNoBorrow
  intro s x y
  have hborrow : ∀ a b : Byte, flagByte (noBorrow a b) = if b.toNat ≤ a.toNat then 1 else 0 := fun a b => by
    simp [flagByte, noBorrow]
  constructor
  · obtain ⟨t, hexec, hflag, hx, hframe⟩ := completes_of_exec_eq_writeResultThenFlag (i := .subReg x y) (s := s) rfl
    exact ⟨t, hexec, fun hne => by rw [hx hne, toNat_byte_sub], hflag.trans (hborrow _ _), hframe⟩
  · obtain ⟨t, hexec, hflag, hx, hframe⟩ := completes_of_exec_eq_writeResultThenFlag (i := .subn x y) (s := s) rfl
    exact ⟨t, hexec, fun hne => by rw [hx hne, toNat_byte_sub], hflag.trans (hborrow _ _), hframe⟩

/-! ### The shifts -/

/-- An instruction that writes a flag and then shifts V[x] completes: where x is not F the old V[x] is shifted and VF
reads the flag, and for x = F the flag itself is shifted. -/
theorem completes_of_exec_eq_flagThenShift {i : Instr} {s : State} {x : Reg} {c : Bool} {shift : Byte → Byte}
    (h : exec i s = .next ((s.setFlag c).setV x (shift ((s.setFlag c).readV x)))) :
    Completes i s fun t => (x ≠ vf → t.readV x = shift (s.readV x) ∧ t.readV vf = flagByte c) ∧
      (x = vf → t.readV vf = shift (flagByte c)) ∧
      (∀ r, r ≠ x → r ≠ vf → t.readV r = s.readV r) ∧ SameBut [.v] s t := by
  refine ⟨_, h, ?_, ?_, ?_, (sameBut_setFlag s c).trans (sameBut_setV _ x _)⟩
  · exact fun hx => by simp [hx, hx.symm]
  · rintro rfl; simp
  · exact fun r hr hvf => by simp [hr, hvf]

theorem completes_shr (x y : Reg) (s : State) :
    Completes (.shr x y) s fun t =>
      (x ≠ vf → t.readV x = s.readV x >>> 1 ∧ t.readV vf = flagByte (shiftedOutRight (s.readV x))) ∧
      (x = vf → t.readV vf = flagByte (shiftedOutRight (s.readV x)) >>> 1) ∧
      (∀ r, r ≠ x → r ≠ vf → t.readV r = s.readV r) ∧ SameBut [.v] s t :=
  completes_of_exec_eq_flagThenShift (shift := (· >>> 1)) rfl

theorem completes_shl (x y : Reg) (s : State) :
    Completes (.shl x y) s fun t =>
      (x ≠ vf → t.readV x = s.readV x <<< 1 ∧ t.readV vf = flagByte (shiftedOutLeft (s.readV x))) ∧
      (x = vf → t.readV vf = flagByte (shiftedOutLeft (s.readV x)) <<< 1) ∧
      (∀ r, r ≠ x → r ≠ vf → t.readV r = s.readV r) ∧ SameBut [.v] s t :=
  completes_of_exec_eq_flagThenShift (shift := (· <<< 1)) rfl

theorem flagByte_shiftRight (c : Bool) : flagByte c >>> 1 = 0 := by
  cases c <;> decide

theorem flagByte_shiftLeft (c : Bool) : (flagByte c <<< 1).toNat = 2 * (flagByte c).toNat := by
  cases c <;> decide

theorem toNat_flagByte_shiftedOutRight (a : Byte) : (flagByte (shiftedOutRight a)).toNat = a.toNat % 2 := by
  rw [flagByte_toNat, shiftedOutRight, BitVec.getLsbD, Nat.toNat_testBit, Nat.pow_zero, Nat.div_one]

theorem toNat_flagByte_shiftedOutLeft (a : Byte) : (flagByte (shiftedOutLeft a)).toNat = a.toNat / 128 := by
  rw [flagByte_toNat, shiftedOutLeft, BitVec.getLsbD, Nat.toNat_testBit]
  omega

/-- Settles O31: by what is shifted, the old V[x] where x is not F, the flag where it is. -/
theorem shiftsCaptureTheBitFirst : Obligations.ShiftsCaptureTheBitFirst := by
  unfold Obligations.ShiftsCaptureTheBitFirst
  intro s x y
  constructor
  · obtain ⟨t, hexec, hx, hvf, hframe⟩ := completes_shr x y s
    refine ⟨t, hexec, fun hne => ?_, fun he => (hvf he).trans (flagByte_shiftRight _), hframe⟩
    obtain ⟨hres, hflag⟩ := hx hne
    exact ⟨by rw [hres, BitVec.toNat_ushiftRight]; rfl, by rw [hflag, toNat_flagByte_shiftedOutRight]⟩
  · obtain ⟨t, hexec, hx, hvf, hframe⟩ := completes_shl x y s
    refine ⟨t, hexec, fun hne => ?_, fun he => ?_, hframe⟩
    · obtain ⟨hres, hflag⟩ := hx hne
      exact ⟨by rw [hres, BitVec.toNat_shiftLeft]; omega, by rw [hflag, toNat_flagByte_shiftedOutLeft]⟩
    · rw [hvf he, flagByte_shiftLeft, toNat_flagByte_shiftedOutLeft, he]

/-! ### The implicit flag -/

/-- DRW writes VF last, and no other V register. -/
theorem exec_drw_readV {x y : Reg} {n : Nat} {s t : State} (h : exec (.drw x y n) s = .next t) :
    ∃ c, ∀ r, t.readV r = if r = vf then flagByte c else s.readV r := by
  simp only [exec, execDrw] at h
  split at h
  · cases h
    exact ⟨false, s.readV_setFlag false⟩
  · cases h
    have hlog := (sameBut_logClamp s n).v (by simp)
    have hdraw := (sameBut_drawSprite (s.readV x).toNat (s.readV y).toNat (spriteBytes s (clampRows s.i n))
      (logClamp s n)).v (by simp)
    exact ⟨_, fun r => by rw [State.readV_setFlag, hdraw, hlog]⟩

/-- What an instruction completes with holds of the state it answers. -/
theorem Completes.of_exec {i : Instr} {s t : State} {post : State → Prop} (h : Completes i s post)
    (ht : exec i s = .next t) : post t := by
  obtain ⟨u, hu, hpost⟩ := h
  obtain rfl := Host.Outcome.next.inj (hu.symm.trans ht)
  exact hpost

/-- Settles O18: VF reads the flag written last, or for a shift of VF the flag shifted by one. -/
theorem implicitFlagIsZeroOrOne : Obligations.ImplicitFlagIsZeroOrOne := by
  unfold Obligations.ImplicitFlagIsZeroOrOne
  intro x y n s t
  have hflag : ∀ {c : Bool}, t.readV vf = flagByte c → t.readV vf = 0 ∨ t.readV vf = 1 := fun {c} h => by
    rw [h]
    exact flagByte_eq_zero_or_one c
  refine ⟨fun i hi h => ?_, fun i hi hx h => ?_, fun h => ?_, fun h => ?_⟩
  · simp only [List.mem_cons, List.not_mem_nil, or_false] at hi
    rcases hi with rfl | rfl | rfl | rfl | rfl | rfl | rfl
    case inr.inr.inr.inr.inr.inr =>
      obtain ⟨c, hc⟩ := exec_drw_readV h
      exact hflag (hc vf)
    all_goals exact hflag (completes_of_exec_eq_writeResultThenFlag rfl |>.of_exec h).1
  · simp only [List.mem_cons, List.not_mem_nil, or_false] at hi
    rcases hi with rfl | rfl
    · obtain ⟨hres, -⟩ := (completes_shr x y s).of_exec h
      exact hflag (hres hx).2
    · obtain ⟨hres, -⟩ := (completes_shl x y s).of_exec h
      exact hflag (hres hx).2
  · obtain ⟨-, hvf, -⟩ := (completes_shr vf y s).of_exec h
    exact (hvf rfl).trans (flagByte_shiftRight _)
  · obtain ⟨-, hvf, -⟩ := (completes_shl vf y s).of_exec h
    rw [hvf rfl]
    cases shiftedOutLeft (s.readV vf)
    · exact .inl rfl
    · exact .inr rfl

/-! ### The V registers an instruction leaves alone -/

/-- Settles O17: an instruction that does not write V by its frame, one that does by what it writes. -/
theorem registerWriteSets : Obligations.RegisterWriteSets := by
  unfold Obligations.RegisterWriteSets
  intro i s t r h hr
  cases i with
  | ldImm x | addImm x | ldReg x | ldVxDt x =>
    obtain ⟨-, hkept, -⟩ := (completes_of_exec_eq_setV rfl).of_exec h
    exact hkept r hr
  | rnd x =>
    cases h
    exact (State.readV_setV _ x r _).trans (if_neg hr)
  | ldVxK x =>
    rcases exec_ldVxK_cases h with rfl | ⟨b, rfl⟩
    · rfl
    · exact (s.readV_setV x r b).trans (if_neg hr)
  | orReg x | andReg x | xorReg x | addReg x | subReg x | subn x =>
    obtain ⟨hx, hvf⟩ := not_or.1 hr
    obtain ⟨-, -, hkept, -⟩ := (completes_of_exec_eq_writeResultThenFlag rfl).of_exec h
    exact hkept r hx hvf
  | shr x y =>
    obtain ⟨hx, hvf⟩ := not_or.1 hr
    obtain ⟨-, -, hkept, -⟩ := (completes_shr x y s).of_exec h
    exact hkept r hx hvf
  | shl x y =>
    obtain ⟨hx, hvf⟩ := not_or.1 hr
    obtain ⟨-, -, hkept, -⟩ := (completes_shl x y s).of_exec h
    exact hkept r hx hvf
  | drw =>
    obtain ⟨c, hc⟩ := exec_drw_readV h
    exact (hc r).trans (if_neg hr)
  | loadVx x =>
    obtain ⟨-, hkept, -⟩ := (blockLoadStopsAtTheEnd s x).of_exec h
    exact hkept r (.inl (Nat.lt_of_not_le hr))
  | cls | ret | jp | call | seImm | sneImm | seReg | sneReg | ldI | jpV0 | skp | sknp | ldDtVx | ldStVx | addIVx |
    ldFVx | ldBVx | storeVx => exact (exec_sameBut h).v (by simp [partsWritten]) r

/-! ### Subroutine return, index add, random byte -/

/-- Settles O21: by whether the pop finds a slot. -/
theorem retPopsOrFallsThrough : Obligations.RetPopsOrFallsThrough := by
  unfold Obligations.RetPopsOrFallsThrough
  constructor
  · intro s hsp
    exact ⟨_, exec_ret_of_underflow (.inl hsp), rfl, sameBut_logEvent s _⟩
  · intro s k hk hsp
    have hpop : 0 < s.sp ∧ s.sp ≤ 16 := by omega
    have hframe := (sameBut_stack s s.stack (s.sp - 1)).append (sameBut_setPc _ (s.stack[s.sp - 1]))
    exact ⟨_, exec_ret_of_pop hpop, by simp [hsp], by simp [hsp], rfl, hframe.mono (by simp)⟩

/-- Settles O33: the byte drawn, under the mask bit by bit. -/
theorem randomIsMaskedDraw : Obligations.RandomIsMaskedDraw := by
  unfold Obligations.RandomIsMaskedDraw
  intro s x nn
  refine ⟨randomMask x nn (drawRand s).1 (drawRand s).2, rfl, fun k _ => ?_, rfl, fun r hr => ?_,
    ((sameBut_draws s _).append (sameBut_setV _ x _)).mono (by simp)⟩
  · simp [randomMask, drawRand]
  · exact (State.readV_setV _ x r _).trans (if_neg hr)

/-- Settles O43: a 16-bit sum is a sum modulo 2^16. -/
theorem addToIndexWraps : Obligations.AddToIndexWraps := by
  unfold Obligations.AddToIndexWraps
  intro s x
  have hsum : (s.i + zextByte (s.readV x)).toNat = (s.i.toNat + (s.readV x).toNat) % 65536 := by
    rw [BitVec.toNat_add, toNat_zextByte]
  exact ⟨_, rfl, hsum, sameBut_setI s _⟩

end Sys2Proof.Machine
end

section
/-! PROOFS. The sprite draw and the host's reads of the display, and the obligations about them (43_display.md rule R99
to rule R103). -/

namespace Sys2Proof.Machine

/-! ### Toggles over distinct cells -/

/-- The pixel (px, py) is, after wrapping, one of the cells. -/
def UnderCells (ps : List (Nat × Nat)) (px py : Nat) : Prop :=
  ∃ p ∈ ps, p.1 % 64 = px % 64 ∧ p.2 % 32 = py % 32

theorem coverCount_eq_zero_iff {ps : List (Nat × Nat)} {px py : Nat} :
    coverCount ps px py = 0 ↔ ¬UnderCells ps px py := by
  simp [coverCount, UnderCells, List.countP_eq_zero]

/-- Of cells no two of which wrap to one pixel, a pixel lies under one or under none. -/
theorem coverCount_of_underCells {ps : List (Nat × Nat)} {px py : Nat}
    (hd : ps.Pairwise (fun p q => ¬(p.1 % 64 = q.1 % 64 ∧ p.2 % 32 = q.2 % 32))) (h : UnderCells ps px py) :
    coverCount ps px py = 1 := by
  induction ps with
  | nil => exact absurd h (by simp [UnderCells])
  | cons q ps ih =>
    rw [List.pairwise_cons] at hd
    by_cases hq : q.1 % 64 = px % 64 ∧ q.2 % 32 = py % 32
    · have hrest : coverCount ps px py = 0 := coverCount_eq_zero_iff.2 fun ⟨p, hp, hx, hy⟩ =>
        hd.1 p hp ⟨hq.1.trans hx.symm, hq.2.trans hy.symm⟩
      simp only [coverCount] at hrest ⊢
      simp [hq, hrest]
    · have hrest : UnderCells ps px py := by
        obtain ⟨p, hp, hcell⟩ := h
        rcases List.mem_cons.1 hp with rfl | hp
        · exact absurd hcell hq
        · exact ⟨p, hp, hcell⟩
      have hcount := ih hd.2 hrest
      simp only [coverCount] at hcount ⊢
      simp [hq, hcount]

theorem getPixel_drawSprite_of_under {ox oy : Nat} {bs : List Byte} (s : State) {px py : Nat} (h : bs.length ≤ 32)
    (hu : UnderCells (spriteCells ox oy bs) px py) :
    (drawSprite ox oy bs s).1.getPixel px py = !s.getPixel px py := by
  have hcount := coverCount_of_underCells (spriteCells_distinct ox oy bs h) hu
  simp [drawSprite, toggleCells_getPixel, hcount]

theorem getPixel_drawSprite_of_not_under {ox oy : Nat} {bs : List Byte} (s : State) {px py : Nat}
    (hu : ¬UnderCells (spriteCells ox oy bs) px py) :
    (drawSprite ox oy bs s).1.getPixel px py = s.getPixel px py := by
  have hcount := coverCount_eq_zero_iff.2 hu
  simp [drawSprite, toggleCells_getPixel, hcount]

/-- A draw collides exactly when a pixel under one of its cells was lit. -/
theorem drawSprite_hit_iff {ox oy : Nat} {bs : List Byte} {s : State} (h : bs.length ≤ 32) :
    (drawSprite ox oy bs s).2 = true ↔
      ∃ px py, UnderCells (spriteCells ox oy bs) px py ∧ s.getPixel px py = true := by
  rw [drawSprite, toggleCells_hit _ _ _ (spriteCells_distinct ox oy bs h), Bool.false_or, List.any_eq_true]
  constructor
  · exact fun ⟨p, hp, hlit⟩ => ⟨p.1, p.2, ⟨p, hp, rfl, rfl⟩, hlit⟩
  · rintro ⟨px, py, ⟨p, hp, hx, hy⟩, hlit⟩
    exact ⟨p, hp, by rwa [s.getPixel_congr hx hy]⟩

theorem drawSprite_dirty (ox oy : Nat) (bs : List Byte) (s : State) :
    (drawSprite ox oy bs s).1.dirty = (s.dirty || !(spriteCells ox oy bs).isEmpty) := by
  obtain ⟨p, h⟩ := toggleCells_shape (spriteCells ox oy bs) s false
  rw [drawSprite, h]

theorem drawSprite_dirty_of_under {ox oy : Nat} {bs : List Byte} (s : State) {px py : Nat}
    (h : UnderCells (spriteCells ox oy bs) px py) : (drawSprite ox oy bs s).1.dirty = true := by
  obtain ⟨p, hp, -⟩ := h
  rw [drawSprite_dirty, List.isEmpty_eq_false_iff.2 (List.ne_nil_of_mem hp), Bool.not_false, Bool.or_true]

theorem drawSprite_dirty_of_no_under {ox oy : Nat} {bs : List Byte} (s : State)
    (h : ∀ px py, ¬UnderCells (spriteCells ox oy bs) px py) : (drawSprite ox oy bs s).1.dirty = s.dirty := by
  have hnil : spriteCells ox oy bs = [] :=
    List.eq_nil_iff_forall_not_mem.2 fun p hp => h p.1 p.2 ⟨p, hp, rfl, rfl⟩
  rw [drawSprite_dirty, hnil, List.isEmpty_nil, Bool.not_true, Bool.or_false]

/-! ### The clamped sprite -/

theorem clampRows_eq (i : Word) (n : Nat) :
    clampRows i n = if 4096 ≤ i.toNat then 0 else if 4096 < i.toNat + n then 4096 - i.toNat else n := rfl

theorem clampRows_le (i : Word) (n : Nat) : clampRows i n ≤ n := by
  rw [clampRows_eq]
  split_ifs <;> omega

theorem add_lt_of_lt_clampRows {i : Word} {n r : Nat} (h : r < clampRows i n) : i.toNat + r < 4096 := by
  rw [clampRows_eq] at h
  split_ifs at h <;> omega

theorem length_spriteBytes (s : State) (n : Nat) : (spriteBytes s (clampRows s.i n)).length = clampRows s.i n := by
  simp [spriteBytes_eq s n _ le_rfl]

theorem memRead_spriteBytes {s : State} {n r : Nat} (h : r < clampRows s.i n) :
    s.memRead (s.i.toNat + r) = some ((spriteBytes s (clampRows s.i n))[r]'(by rwa [length_spriteBytes])) := by
  simp [spriteBytes_eq s n _ le_rfl, State.memRead, add_lt_of_lt_clampRows h]

/-- The pixels under the sprite are those under the cells the draw toggles. -/
theorem underSprite_iff {s : State} {x y : Reg} {n px py : Nat} :
    UnderSprite s x y (clampRows s.i n) px py ↔
      UnderCells (spriteCells (s.readV x).toNat (s.readV y).toNat (spriteBytes s (clampRows s.i n))) px py := by
  constructor
  · rintro ⟨r, c, b, hr, hc, hread, hbit, hx, hy⟩
    rw [memRead_spriteBytes hr] at hread
    obtain rfl := Option.some.inj hread
    exact ⟨_, mem_spriteCells.2 ⟨r, c, by rwa [length_spriteBytes], hc, hbit, rfl⟩, hx, hy⟩
  · rintro ⟨p, hp, hx, hy⟩
    obtain ⟨r, c, hlen, hc, hbit, rfl⟩ := mem_spriteCells.1 hp
    have hr : r < clampRows s.i n := by rwa [length_spriteBytes] at hlen
    exact ⟨r, c, _, hr, hc, memRead_spriteBytes hr, hbit, hx, hy⟩

theorem logClamp_log (s : State) (n : Nat) :
    (logClamp s n).log =
      s.log ++ if clampRows s.i n = n then [] else [.spriteTruncated s.i n (clampRows s.i n)] := by
  unfold logClamp
  split <;> simp

theorem getPixel_logClamp (s : State) (n x y : Nat) : (logClamp s n).getPixel x y = s.getPixel x y := by
  obtain ⟨l, h⟩ := logClamp_shape s n
  rw [h]
  rfl

theorem logClamp_dirty (s : State) (n : Nat) : (logClamp s n).dirty = s.dirty :=
  (sameBut_logClamp s n).dirty (by simp)

/-! ### DRW -/

/-- What DRW draws: the sprite at I, clamped, on the state that has logged a cut. -/
def drawnSprite (x y : Reg) (n : Nat) (s : State) : State × Bool :=
  drawSprite (s.readV x).toNat (s.readV y).toNat (spriteBytes s (clampRows s.i n)) (logClamp s n)

theorem exec_drw_of_pos {x y : Reg} {n : Nat} {s : State} (h : n ≠ 0) :
    exec (.drw x y n) s = .next ((drawnSprite x y n s).1.setFlag (drawnSprite x y n s).2) := if_neg h

/-- DRW collides exactly when a pixel under the sprite was lit. -/
theorem drawnSprite_hit_iff {x y : Reg} {n : Nat} {s : State}
    (h : (spriteBytes s (clampRows s.i n)).length ≤ 32) :
    (drawnSprite x y n s).2 = true ↔
      ∃ px py, UnderSprite s x y (clampRows s.i n) px py ∧ s.getPixel px py = true := by
  simp only [drawnSprite, drawSprite_hit_iff h, getPixel_logClamp, underSprite_iff]

/-- Settles O35: with no rows DRW clears the flag and does nothing else. -/
theorem drawWithZeroRowsClearsFlag : Obligations.DrawWithZeroRowsClearsFlag := by
  unfold Obligations.DrawWithZeroRowsClearsFlag
  exact fun s x y => ⟨s.setFlag false, rfl, s.readV_setFlag false vf,
    fun r hr => (s.readV_setFlag false r).trans (if_neg hr), sameBut_setFlag s false⟩

/-- Settles O36: a sprite has at most 15 rows, so its cells are distinct pixels, each toggled once. -/
theorem drawXorsTheSprite : Obligations.DrawXorsTheSprite := by
  unfold Obligations.DrawXorsTheSprite
  rintro s x y n _ hn1 hn15 rfl
  rw [← clampRows_eq]
  have hlen : (spriteBytes s (clampRows s.i n)).length ≤ 32 := by
    have := clampRows_le s.i n
    rw [length_spriteBytes]
    omega
  have hframe : SameBut [.log, .display] s (drawnSprite x y n s).1 :=
    (sameBut_logClamp s n).append (sameBut_drawSprite _ _ _ _)
  refine ⟨_, exec_drw_of_pos (by omega), fun px py hu => ?_, fun px py hu => ?_, fun hlit => ?_, fun hunlit => ?_,
    fun hu => ?_, fun hno => ?_, ?_, fun r hr => ?_, (hframe.append (sameBut_setFlag _ _)).mono (by simp)⟩
  · exact (getPixel_drawSprite_of_under _ hlen (underSprite_iff.1 hu)).trans (by rw [getPixel_logClamp])
  · exact (getPixel_drawSprite_of_not_under _ (mt underSprite_iff.2 hu)).trans (getPixel_logClamp s n px py)
  · have hhit := (drawnSprite_hit_iff hlen).2 hlit
    rw [State.readV_setFlag, if_pos rfl, hhit]
    rfl
  · have hhit : (drawnSprite x y n s).2 = false := Bool.eq_false_iff.2 fun hhit => by
      obtain ⟨px, py, hu, hlit⟩ := (drawnSprite_hit_iff hlen).1 hhit
      simp [hunlit px py hu] at hlit
    rw [State.readV_setFlag, if_pos rfl, hhit]
    rfl
  · obtain ⟨px, py, hu⟩ := hu
    exact drawSprite_dirty_of_under _ (underSprite_iff.1 hu)
  · exact (drawSprite_dirty_of_no_under _ fun px py hu => hno px py (underSprite_iff.2 hu)).trans (logClamp_dirty s n)
  · have hdraw := (sameBut_drawSprite (s.readV x).toNat (s.readV y).toNat (spriteBytes s (clampRows s.i n))
      (logClamp s n)).log (by simp)
    exact hdraw.trans (logClamp_log s n)
  · exact (State.readV_setFlag _ _ r).trans ((if_neg hr).trans (hframe.v (by simp) r))

/-! ### The host's reads -/

theorem getElem?_snapshot (s : State) {x y : Nat} (hx : x < 64) (hy : y < 32) :
    (snapshot s)[y * 64 + x]? = some (s.getPixel x y) := by
  have hk : y * 64 + x < 2048 := by omega
  have hcol : (y * 64 + x) % 64 = x := by omega
  have hrow : (y * 64 + x) / 64 = y := by omega
  simp [snapshot, hk, hcol, hrow]

/-- Settles O37: by the cell of the snapshot at each index. -/
theorem hostReadsTheDisplay : Obligations.HostReadsTheDisplay := by
  unfold Obligations.HostReadsTheDisplay
  exact fun s => ⟨rfl, snapshot s, rfl, by simp [snapshot], fun _ _ => getElem?_snapshot s⟩

end Sys2Proof.Machine
end

section
/-! PROOFS. Memory at reset and at a launch, the decimal digits, stored code, the call stack and the tone edges, and the
obligations about them (10_state.md rule R24, rule R25, rule R37; 20_memory.md rule R42, rule R53; 45_fx.md rule R116;
60_exceptions.md rule R134, rule R135; 70_reset_and_hazards.md rule R145, rule R158). -/

namespace Sys2Proof.Machine

/-! ### Reset and launch -/

theorem memRead_resetWith {a : Nat} (c : Config) (h : a < 4096) :
    (State.resetWith c).memRead a = some (resetByte c a) := if_pos h

/-- The glyph bytes lie at FONT_BASE onward. -/
theorem memRead_resetWith_font {c : Config} (hc : c.Admitted) {j : Nat} (h : j < 80) :
    (State.resetWith c).memRead (c.fontBase + j) = some c.fontData[j] := by
  have hbound := hc.1
  rw [memRead_resetWith c (by omega)]
  simp [resetByte, h]

theorem memRead_resetWith_beside {c : Config} {a : Nat} (h : a < 4096)
    (hout : a < c.fontBase ∨ c.fontBase + 80 ≤ a) : (State.resetWith c).memRead a = some 0 := by
  rw [memRead_resetWith c h, resetByte, dif_neg (by omega)]

theorem readV_resetWith (c : Config) (r : Reg) : (State.resetWith c).readV r = 0 := by
  simp [State.readV, State.resetWith]

theorem isDown_resetWith (c : Config) {k : Nat} (h : k < 16) : (State.resetWith c).isDown k = some false := by
  rw [State.isDown_of_lt _ h]
  simp [State.resetWith]

theorem getPixel_resetWith (c : Config) (x y : Nat) : (State.resetWith c).getPixel x y = false :=
  getPixel_clearDisplay (State.resetWith c) x y

/-- Settles O10: each field by its reset value, each byte by the reset contents of memory. -/
theorem resetTableHolds : Obligations.ResetTableHolds := by
  unfold Obligations.ResetTableHolds
  refine ⟨?_, rfl, by decide, rfl, rfl, rfl⟩
  rintro c hc _ rfl
  exact ⟨readV_resetWith c, rfl, rfl, rfl, fun k _ => by simp [State.resetWith], rfl, rfl,
    fun k hk => isDown_resetWith c hk, getPixel_resetWith c, rfl, rfl, rfl, rfl,
    fun j hj => memRead_resetWith_font hc hj, fun a ha hout => memRead_resetWith_beside ha hout⟩

/-- Settles O11: the reset transaction is defined by the reset state. -/
theorem restartIsConstruction : Obligations.RestartIsConstruction := by
  unfold Obligations.RestartIsConstruction
  exact fun s => rfl

/-- Settles O53: a launch is the reset state with the program copied to 0x200, past the glyphs; a copy writes memory
alone. -/
theorem cleanLaunchState : Obligations.CleanLaunchState := by
  unfold Obligations.CleanLaunchState
  rintro prog s ⟨hadm, hload⟩
  generalize hc : s.cfg = c at hadm hload ⊢
  obtain ⟨hlen, hs⟩ := loadProgram_cases hload
  obtain ⟨m, hm, -⟩ := copyBytes_shape progBase prog (State.resetWith c)
  have hfit : progBase + prog.length ≤ memSize := by simp only [progBase, memSize] at hlen ⊢; omega
  have hglyphs : c.fontBase + 80 ≤ 0x200 := hadm.1
  have hcopied : ∀ (j : Nat) (h : j < prog.length), s.memRead (0x200 + j) = some prog[j] := fun j hj =>
    hs ▸ copyBytes_memRead_copied (State.resetWith c) hfit hj
  have hbeside : ∀ b, b < 0x200 ∨ 0x200 + prog.length ≤ b → s.memRead b = (State.resetWith c).memRead b :=
    fun b hb => hs ▸ copyBytes_memRead_beside (State.resetWith c) hfit hb
  have hkeys : (State.resetWith c).firstPressed = none :=
    State.firstPressed_eq_none_iff.2 fun k hk => (State.isDown_ne_true_iff _ hk).2 (isDown_resetWith c hk)
  obtain rfl := hs.trans hm
  exact ⟨rfl, rfl, rfl, readV_resetWith c, rfl, rfl, rfl, hkeys, getPixel_resetWith c, rfl, rfl, rfl, rfl, hlen,
    hcopied, fun j hj => (hbeside _ (by omega)).trans (memRead_resetWith_font hadm hj),
    fun a ha hfont hprog => (hbeside a hprog).trans (memRead_resetWith_beside ha hfont)⟩

/-! ### Stored code -/

/-- Settles O60: the fetch reads the two bytes that the block store wrote. -/
theorem storedCodeIsFetched : Obligations.StoredCodeIsFetched := by
  unfold Obligations.StoredCodeIsFetched
  intro s x p r hr hfits hp
  obtain ⟨t, hexec, hstored, -⟩ := blockStoreStopsAtTheEnd s x
  have hnext : (r + 1).toNat = r.toNat + 1 := by bv_omega
  have hhi : t.memRead p.toNat = some (s.readV r) := by
    rw [hp]
    exact hstored r (by omega) (by omega)
  have hlo : t.memRead (p.toNat + 1) = some (s.readV (r + 1)) := by
    rw [hp, Nat.add_assoc, ← hnext]
    exact hstored (r + 1) (by omega) (by omega)
  refine ⟨t, hexec, ?_⟩
  rw [← wordOfBytes_eq_ofNat]
  exact fetchWord_of_memRead hhi hlo

/-! ### The decimal digits -/

/-- The digit stores change no byte beside theirs. -/
theorem storeBytes_memRead_beside {a b : Nat} {bs : List Byte} (s : State) (h : b < a ∨ a + bs.length ≤ b) :
    (storeBytes a bs s).memRead b = s.memRead b := by
  induction bs generalizing a s with
  | nil => rfl
  | cons v bs ih =>
    rw [List.length_cons] at h
    rcases Nat.lt_or_ge a memSize with ha | ha
    · have hw := s.memWrite_of_lt v ha
      simp only [storeBytes, hw]
      rw [ih _ (by omega), State.memRead_of_memWrite hw, if_neg (by omega)]
    · simp only [storeBytes, State.memWrite_eq_none.2 ha]
      rw [ih _ (by omega), State.memRead_logEvent]

/-- Each digit whose address exists is stored there. -/
theorem storeBytes_memRead_stored {a j : Nat} {bs : List Byte} (s : State) (hj : j < bs.length)
    (ha : a + j < memSize) : (storeBytes a bs s).memRead (a + j) = some bs[j] := by
  induction bs generalizing a j s with
  | nil => exact absurd hj (Nat.not_lt_zero j)
  | cons v bs ih =>
    have hw := s.memWrite_of_lt v (show a < memSize by omega)
    simp only [storeBytes, hw]
    cases j with
    | zero => rw [storeBytes_memRead_beside _ (by omega), State.memRead_of_memWrite hw]; simp
    | succ j =>
      rw [List.length_cons] at hj
      rw [show a + (j + 1) = a + 1 + j by omega]
      exact ih _ (by omega) (by omega)

/-- The addresses that do not exist are logged, in address order. -/
theorem storeBytes_log (a : Nat) (bs : List Byte) (s : State) :
    (storeBytes a bs s).log =
      s.log ++ ((List.range' a bs.length).filter (fun b => 4096 ≤ b)).map .outOfBounds := by
  induction bs generalizing a s with
  | nil => simp [storeBytes]
  | cons v bs ih =>
    rw [List.length_cons, List.range'_succ]
    rcases Nat.lt_or_ge a memSize with ha | ha
    · simp only [storeBytes, s.memWrite_of_lt v ha]
      have hexists : ¬4096 ≤ a := Nat.not_le.2 ha
      simp [ih, hexists]
    · simp only [storeBytes, State.memWrite_eq_none.2 ha]
      have hout : 4096 ≤ a := ha
      simp [ih, hout]

/-- Settles O45: the three digits are the bytes the stores are given, hundreds first. -/
theorem bcdStoresEachDigit : Obligations.BcdStoresEachDigit := by
  unfold Obligations.BcdStoresEachDigit
  intro s x
  exact ⟨_, rfl, storeBytes_memRead_stored (bs := bcdDigits (s.readV x)) (j := 0) s (by simp [bcdDigits]),
    storeBytes_memRead_stored (bs := bcdDigits (s.readV x)) (j := 1) s (by simp [bcdDigits]),
    storeBytes_memRead_stored (bs := bcdDigits (s.readV x)) (j := 2) s (by simp [bcdDigits]),
    fun a ha => storeBytes_memRead_beside s ha, storeBytes_log _ _ s, sameBut_storeBytes _ _ s⟩

/-! ### The call stack -/

theorem State.stackPop_of_succ {s : State} {k : Nat} (h : s.sp = k + 1) (hk : k < 16) :
    s.stackPop = some (s.stack[k], { s with sp := k }) := by
  rw [s.stackPop_of_pos (by omega)]
  simp only [h, Nat.add_sub_cancel]

/-- Settles O55: the first pop answers the value pushed last and leaves the slot below it. -/
theorem stackIsLastInFirstOut : Obligations.StackIsLastInFirstOut := by
  unfold Obligations.StackIsLastInFirstOut
  refine ⟨fun s v1 v2 hroom => ?_, fun s v hfull => State.stackPush_eq_none.2 hfull.ge,
    fun s hempty => State.stackPop_eq_none.2 (.inl hempty)⟩
  have h1 : s.sp < 16 := by omega
  have h2 : s.sp + 1 < 16 := by omega
  have hslot : ((s.stack.set s.sp v1 h1).set (s.sp + 1) v2 h2)[s.sp] = v1 := by
    rw [Vector.getElem_set_ne _ _ (by omega), Vector.getElem_set_self]
  exact ⟨_, _, _, _, s.stackPush_of_lt v1 h1, State.stackPush_of_lt _ v2 h2, rfl, State.stackPop_push _ v2 h2,
    (State.stackPop_of_succ rfl h1).trans (congrArg (fun v => some (v, _)) hslot), rfl⟩

/-! ### Tone edges -/

theorem tick_startTone_iff {e : Nat} {s : State} :
    (tick e s).2.1 = true ↔ (tick e s).1.st ≠ 0 ∧ s.toneLatch = false := by
  simp [tick_startTone]

theorem tick_stopTone_iff {e : Nat} {s : State} :
    (tick e s).2.2 = true ↔ (tick e s).1.st = 0 ∧ s.toneLatch = true := by
  simp [tick_stopTone, and_comm]

/-- Settles O49: the edges compare the sound timer after the tick with the latch before it. -/
theorem tickReportsToneEdges : Obligations.TickReportsToneEdges := by
  unfold Obligations.TickReportsToneEdges
  intro s elapsed
  refine ⟨(tick elapsed s).1, _, _, rfl, tick_startTone_iff, tick_stopTone_iff, ?_, ?_⟩
  · rintro ⟨hstart, hstop⟩
    exact (tick_startTone_iff.1 hstart).1 (tick_stopTone_iff.1 hstop).1
  · simp [tick_toneLatch]

/-- A tick that counts no whole step and finds no time gone moves the latch alone. -/
theorem tick_zero {s : State} (h : s.acc < s.cfg.stepNs) : (tick 0 s).1 = { s with toneLatch := s.st != 0 } := by
  have hsteps : (s.acc + 0) / s.cfg.stepNs = 0 := Nat.div_eq_of_lt h
  have hdt : (tick 0 s).1.dt = s.dt := BitVec.eq_of_toNat_eq (by rw [tick_dt_toNat, hsteps]; simp)
  have hst : (tick 0 s).1.st = s.st := BitVec.eq_of_toNat_eq (by rw [tick_st_toNat, hsteps]; simp)
  have hacc : (tick 0 s).1.acc = s.acc := (tick_acc 0 s).trans (Nat.mod_eq_of_lt h)
  have hlatch : (tick 0 s).1.toneLatch = (s.st != 0) := by rw [tick_toneLatch, hst]
  calc (tick 0 s).1 = { s with
          acc := (tick 0 s).1.acc, dt := (tick 0 s).1.dt, st := (tick 0 s).1.st,
          toneLatch := (tick 0 s).1.toneLatch } := rfl
    _ = _ := by rw [hacc, hdt, hst, hlatch]

/-- Once the latch says whether ST is nonzero, ticks keep it so. -/
theorem afterTicks_toneLatch (es : List Nat) {s : State} (h : s.toneLatch = (s.st != 0)) :
    (afterTicks es s).toneLatch = ((afterTicks es s).st != 0) := by
  induction es generalizing s with
  | nil => exact h
  | cons e es ih => exact ih (tick_toneLatch e s)

/-- Where the latch says whether ST is nonzero no tick reports a start: ticks never raise ST from 0. -/
theorem tick_startTone_eq_false {s : State} (h : s.toneLatch = (s.st != 0)) (e : Nat) : (tick e s).2.1 = false := by
  refine Bool.eq_false_iff.2 fun hstart => ?_
  obtain ⟨hst, hlatch⟩ := tick_startTone_iff.1 hstart
  have hzero : s.st = 0 := by simpa [h] using hlatch
  exact hst (tick_st_of_zero hzero)

theorem transact_tick_eq {e : Nat} {s t : State} {start stop : Bool} (ht : (tick e s).1 = t)
    (hstart : (tick e s).2.1 = start) (hstop : (tick e s).2.2 = stop) :
    transact (.tick e) s = .next (t, .tone start stop) := by
  subst ht hstart hstop
  rfl

/-- Settles O50: STEP_NS is one whole step, 0 is none; after a tick the latch says whether ST is nonzero. -/
theorem oneStepFeedAndOneStartTone : Obligations.OneStepFeedAndOneStartTone := by
  unfold Obligations.OneStepFeedAndOneStartTone
  intro s hacc hpos
  constructor
  · have hone : (s.acc + s.cfg.stepNs) / s.cfg.stepNs = 1 := by rw [hacc, Nat.zero_add, Nat.div_self hpos]
    refine ⟨(tick s.cfg.stepNs s).1, _, rfl, ?_, ?_⟩
    · rw [tick_dt_toNat, hone]; omega
    · rw [tick_st_toNat, hone]; omega
  · have ht := tick_zero (hacc ▸ hpos : s.acc < s.cfg.stepNs)
    have hstop : (tick 0 s).2.2 = (s.st == 0 && s.toneLatch) := by
      rw [tick_stopTone, ht, Bool.and_comm]
      exact congrArg (· && s.toneLatch) (Bool.not_not (s.st == 0))
    refine ⟨{ s with toneLatch := s.st != 0 }, _, transact_tick_eq ht rfl hstop, rfl, rfl, fun hst hlatch => ?_⟩
    have hstart : (tick 0 s).2.1 = true := tick_startTone_iff.2 ⟨by rw [ht]; exact hst, hlatch⟩
    have hagain := tick_zero (s := { s with toneLatch := s.st != 0 }) (hacc ▸ hpos : s.acc < s.cfg.stepNs)
    have hnostop : (tick 0 { s with toneLatch := s.st != 0 }).2.2 = false := Bool.eq_false_iff.2 fun hstop => by
      obtain ⟨hzero, -⟩ := tick_stopTone_iff.1 hstop
      rw [hagain] at hzero
      exact hst hzero
    exact ⟨hstart, transact_tick_eq hagain (tick_startTone_eq_false rfl 0) hnostop,
      fun earlier elapsed => ⟨_, _, transact_tick_eq rfl
        (tick_startTone_eq_false (afterTicks_toneLatch earlier rfl) elapsed) rfl⟩⟩

end Sys2Proof.Machine
end
